-- ==== Sys2Proof/Word.lean ====
section
/-! DEFINITION. The one data width of the machine (00_scope.md R5, R6): every register, memory cell, address,
opcode and operand is an unsigned byte, and arithmetic on bytes is modulo 256, which is `BitVec 8` addition. -/

namespace Sys2Proof

/-- A byte: an unsigned integer 0 to 255 (00_scope.md section 5, R6). -/
abbrev Byte := BitVec 8

end Sys2Proof
end

