-- ==== Sys2Proof/Config.lean ====
section
/-! DEFINITION. The implementation parameters of 00_scope.md R5 that are plain numbers. All are fixed by the spec;
the one open parameter, `OPC`, is the argument `opc` of the decoder, the encoder and the step (Decode.lean).
There is no free value: 93_implementation_defined.md says that no behaviour of an instruction is left undefined. -/

namespace Sys2Proof.Config

/-- `MEMSIZE`, the number of memory cells (R5, R20). -/
abbrev memSize : Nat := 256

/-- `DISP_BASE`, the first display-mapped address (R5, R35). -/
abbrev dispBase : Nat := 240

/-- `DISP_SIZE`, the number of display slots (R5, R21). -/
abbrev dispSize : Nat := 16

/-- `RESET_PC`, the entry point after boot or reset (R5, R25, R163). -/
abbrev resetPc : Byte := 0

/-- `LOAD_BASE`, where a binary program is placed (R5, R68, R165). -/
abbrev loadBase : Nat := 0

end Sys2Proof.Config
end

