-- ==== Sys2Proof/Machine/State.lean ====
section
/-! DEFINITION. The state of the machine (10_state.md R10), why a step can stop, and the state after power-on. -/

namespace Sys2Proof.Machine

/-- The ExecutionState: two names and no bit encoding (10_state.md R17). -/
inductive ExecState where
  | running
  | halted
deriving DecidableEq, Repr

/-- The names of the RegisterFile (10_state.md R11, R14), as the host's edit operation uses them
(60_exceptions.md R147). -/
inductive RegName where
  | reg1 | reg2 | ptr | pc
deriving DecidableEq, Repr

/-- The memory array, sparse: (address, byte) pairs; an address that is not listed reads as 0, what every cell holds
after power-on (10_state.md R20, R26). `Memory.wf` in Machine/Ops.lean is its canonical form (log 6). -/
structure Memory where
  cells : List Host.Cell
deriving DecidableEq, Repr

/-- The whole architectural state (10_state.md R10). The display is not in it: it is a function of `mem` (R21). -/
structure State where
  /-- REG1 (R11). -/
  reg1 : Byte
  /-- REG2 (R11). -/
  reg2 : Byte
  /-- PTR, the memory pointer (R11). -/
  ptr : Byte
  /-- PC, the address of the next opcode byte (R14). -/
  pc : Byte
  /-- `st`, RUNNING or HALTED (R17). -/
  st : ExecState
  /-- `M`, the 256 cells (R20). -/
  mem : Memory
deriving DecidableEq, Repr

/-- Why the machine stops with a fault: the one exception of the engine (60_exceptions.md R130). -/
inductive Fault where
  /-- `InvalidOpcode(a, op)`: a RUNNING step found at address `a` = PC the byte `op`, which is no opcode. Raised by
  the step at decode, before any operand fetch and any effect, so the state is the one before the step
  (60_exceptions.md R130; 40_execution_cycle.md R83; log 3). Safe: the machine stops its run here too. -/
  | invalidOpcode (a op : Byte)
deriving DecidableEq, Repr

/-- Why the model has no meaning for an instruction. -/
inductive Refusal where
  /-- An instruction without a meaning in this model, by its mnemonic. Raised by no arm: all nine instructions have
  their meaning. Safe. -/
  | notModelled (mnemonic : String)
deriving DecidableEq, Repr

/-- The machine right after power-on: memory zero, then boot (70_reset_and_hazards.md R160, R161; 10_state.md R25,
R26, R27; log 2). -/
def State.reset : State where
  reg1 := 0
  reg2 := 0
  ptr := 0
  pc := Config.resetPc
  st := .running
  mem := ⟨[]⟩

end Sys2Proof.Machine
end

