-- ==== Sys2Proof/Machine/Ops.lean ====
section
/-! DEFINITION. The named operations over memory, display and registers, raising the one exception, and boot/reset.
There is no trap entry and no return from one (60_exceptions.md R136, R137): raising the exception is all there is. -/

namespace Sys2Proof.Machine

/-- What an unlisted address reads as: memory is zero at power-on (10_state.md R26). -/
abbrev Memory.unlisted : Byte := 0

/-- The byte listed at an address, or `Memory.unlisted`. -/
def readCells : List Host.Cell → Nat → Byte
  | [], _ => Memory.unlisted
  | (b, v) :: rest, a => if b = a then v else readCells rest a

/-- Put a cell before the first cell of a higher address. -/
def insertCell (a : Nat) (v : Byte) : List Host.Cell → List Host.Cell
  | [] => [(a, v)]
  | (b, w) :: rest => if a < b then (a, v) :: (b, w) :: rest else (b, w) :: insertCell a v rest

/-- `M[a]` (20_memory.md R31). -/
def Memory.read (m : Memory) (a : Nat) : Byte :=
  readCells m.cells a

/-- `M[a] <- v` (20_memory.md R32), keeping the canonical form: a cell that would read as an unlisted one is not
listed. -/
def Memory.write (m : Memory) (a : Nat) (v : Byte) : Memory :=
  let others := m.cells.filter (fun c => c.1 != a)
  if v = Memory.unlisted then ⟨others⟩ else ⟨insertCell a v others⟩

/-- Addresses strictly rising from `lo` on, all below 256, and no byte equal to `Memory.unlisted`. -/
def cellsOk : Nat → List Host.Cell → Bool
  | _, [] => true
  | lo, (a, v) :: rest =>
    decide (lo ≤ a) && decide (a < Config.memSize) && decide (v ≠ Memory.unlisted) && cellsOk (a + 1) rest

/-- The canonical form of memory: equal memories are equal lists (log 6). -/
def Memory.wf (m : Memory) : Bool :=
  cellsOk 0 m.cells

/-- `MemRead(addr, 1)`: the one read primitive. No side effect at any address (20_memory.md R31). -/
def memRead (s : State) (a : Byte) : Byte :=
  s.mem.read a.toNat

/-- `MemWrite(addr, 1, v)`: the one write primitive (20_memory.md R32, R33). Its output toward the renderer is
`displayUpdates`. -/
def memWrite (s : State) (a v : Byte) : State :=
  { s with mem := s.mem.write a.toNat v }

/-- The event `DisplayUpdate(slot, char)` toward the renderer (20_memory.md R32). An output of the block, no state
(log 5). -/
structure DisplayUpdate where
  slot : Nat
  char : Byte
deriving DecidableEq, Repr

/-- The events of `MemWrite(a, 1, v)`: one for an address in 240..255, none below (20_memory.md R32). -/
def displayUpdates (a v : Byte) : List DisplayUpdate :=
  if Config.dispBase ≤ a.toNat then [⟨a.toNat - Config.dispBase, v⟩] else []

/-- `D[i] = M[240 + i]` (10_state.md R21). -/
def displaySlot (s : State) (i : Nat) : Byte :=
  s.mem.read (Config.dispBase + i)

/-- The display `D[0..15]`, a pure projection of memory (10_state.md R21; 20_memory.md R48). -/
def display (s : State) : List Byte :=
  (List.range Config.dispSize).map (displaySlot s)

/-- A slot is unset exactly when its byte is 0x00 (10_state.md R22, decision D2, log 8). -/
def slotUnset (s : State) (i : Nat) : Bool :=
  decide (displaySlot s i = 0)

/-- Read a register of the RegisterFile (00_scope.md section 6: `x[r]`, `pc`). -/
def readReg (s : State) : RegName → Byte
  | .reg1 => s.reg1
  | .reg2 => s.reg2
  | .ptr => s.ptr
  | .pc => s.pc

/-- Write a register of the RegisterFile, nothing else (00_scope.md section 6: `x[r] <- v`, `pc <- target`). -/
def writeReg (s : State) : RegName → Byte → State
  | .reg1, v => { s with reg1 := v }
  | .reg2, v => { s with reg2 := v }
  | .ptr, v => { s with ptr := v }
  | .pc, v => { s with pc := v }

/-- `st <- v` (00_scope.md section 6). -/
def setExecState (s : State) (v : ExecState) : State :=
  { s with st := v }

/-- The sequential advance `pc <- (pc + n) mod 256` (40_execution_cycle.md R85; 10_state.md R14). -/
def advancePc (s : State) (n : Nat) : State :=
  writeReg s .pc (s.pc + BitVec.ofNat 8 n)

/-- `raise InvalidOpcode(a, op)`: the step ends at once and changes nothing. Nothing is saved and control goes to no
handler (60_exceptions.md R130, R136). -/
def raiseInvalidOpcode (a op : Byte) : Host.Outcome State Fault Refusal :=
  .fault (.invalidOpcode a op)

/-- `Reset()`, boot and reset alike: registers zero, RUNNING, memory untouched (70_reset_and_hazards.md R161). -/
def bootReset (s : State) : State :=
  { s with reg1 := 0, reg2 := 0, ptr := 0, pc := Config.resetPc, st := .running }

/-- One `MemWrite` for each (address, byte) pair, in order (60_exceptions.md R148; 70_reset_and_hazards.md R165). -/
def mergeBytes (s : State) (bytes : List (Byte × Byte)) : State :=
  bytes.foldl (fun s p => memWrite s p.1 p.2) s

/-- The events of `mergeBytes` (20_memory.md R33). -/
def mergeUpdates (bytes : List (Byte × Byte)) : List DisplayUpdate :=
  bytes.flatMap (fun p => displayUpdates p.1 p.2)

/-- Consecutive bytes with their addresses, from `a` on. -/
def placeBytes : Nat → List Byte → List (Byte × Byte)
  | _, [] => []
  | a, b :: rest => (BitVec.ofNat 8 a, b) :: placeBytes (a + 1) rest

end Sys2Proof.Machine
end

