-- ==== Sys2Proof/Machine/Alu.lean ====
section
/-! DEFINITION. The two computing operations (42_alu.md R105 to R107): `REG1 <- REG1 op REG2`, modulo 256, no flags. -/

namespace Sys2Proof.Machine

/-- 8-bit addition modulo 256; the carry is lost (42_alu.md R105, R107). -/
def aluAdd (x y : Byte) : Byte :=
  BitVec.ofNat 8 (x.toNat + y.toNat)

/-- 8-bit bitwise exclusive or (42_alu.md R105, R106). -/
def aluXor (x y : Byte) : Byte :=
  x ^^^ y

/-- The common shape of both: the result goes to REG1 and PC advances by 1 (42_alu.md R106, R107). -/
def aluStep (op : Byte → Byte → Byte) (s : State) : State :=
  advancePc (writeReg s .reg1 (op (readReg s .reg1) (readReg s .reg2))) 1

/-- XOR (42_alu.md R106). -/
def execXor (s : State) : Host.Outcome State Fault Refusal :=
  .next (aluStep aluXor s)

/-- ADD (42_alu.md R107). -/
def execAdd (s : State) : Host.Outcome State Fault Refusal :=
  .next (aluStep aluAdd s)

end Sys2Proof.Machine
end

