-- ==== Sys2Proof/Machine/Flags.lean ====
section
/-! DEFINITION. The machine has no flags and no condition codes (10_state.md R16), so there is no flag computation.
What stands here is the one condition an instruction tests: the value of REG1 (45_branch.md R121). -/

namespace Sys2Proof.Machine

/-- The condition of JNZ: REG1 is not 0, all eight bits of it (45_branch.md R121). -/
def jumpTaken (s : State) : Bool :=
  readReg s .reg1 != 0

end Sys2Proof.Machine
end

