-- ==== Sys2Proof/Machine/Branch.lean ====
section
/-! DEFINITION. JNZ, the only control transfer (45_branch.md R120, R121). -/

namespace Sys2Proof.Machine

/-- JNZ k: `pc <- k` if REG1 is not 0, else `pc <- pc + 2`; this is the whole PC update (45_branch.md R121). -/
def execJnz (k : Byte) (s : State) : Host.Outcome State Fault Refusal :=
  .next (if jumpTaken s then writeReg s .pc k else advancePc s 2)

end Sys2Proof.Machine
end

