-- ==== Sys2Proof/Machine/Control.lean ====
section
/-! DEFINITION. HALT, the only system instruction (41_halt.md R100, R101). A meaning is the effect and the PC update of
one instruction at PC; the step reaches it only while `st` is RUNNING (40_execution_cycle.md R82, log 10). -/

namespace Sys2Proof.Machine

/-- HALT: `st <- HALTED`; PC stays on the HALT byte (41_halt.md R100). -/
def execHalt (s : State) : Host.Outcome State Fault Refusal :=
  .next (setExecState s .halted)

end Sys2Proof.Machine
end

