-- ==== Sys2Proof/Machine/Operands.lean ====
section
/-! DEFINITION. The operand forms: register indirect through PTR, the only addressing mode (43_memory_access.md
R110), and the operand byte after the opcode (30_encoding.md R53). Registers are implicit in every instruction. -/

namespace Sys2Proof.Machine

/-- The effective address of LOAD and STORE: PTR as it stands (43_memory_access.md R110). -/
def effectiveAddress (s : State) : Byte :=
  readReg s .ptr

/-- The address of the operand byte, `(pc + 1) mod 256`; with PC = 255 it is 0 (30_encoding.md R53;
40_execution_cycle.md R84; 20_memory.md R38; log 7). -/
def operandAddress (s : State) : Byte :=
  s.pc + 1

/-- The operand `k` of the instruction at PC, taken as it stands (30_encoding.md R53). -/
def operandByte (s : State) : Byte :=
  memRead s (operandAddress s)

end Sys2Proof.Machine
end

