-- ==== Sys2Proof/Machine/MemoryAccess.lean ====
section
/-! DEFINITION. LOAD and STORE (43_memory_access.md R110 to R112). No address can fault. -/

namespace Sys2Proof.Machine

/-- LOAD: `REG1 <- M[PTR]` (43_memory_access.md R111). -/
def execLoad (s : State) : Host.Outcome State Fault Refusal :=
  .next (advancePc (writeReg s .reg1 (memRead s (effectiveAddress s))) 1)

/-- STORE: `MemWrite(PTR, 1, REG1)` (43_memory_access.md R112). Its events are `displayUpdates` of the same address
and byte (Machine/Events.lean). -/
def execStore (s : State) : Host.Outcome State Fault Refusal :=
  .next (advancePc (memWrite s (effectiveAddress s) (readReg s .reg1)) 1)

end Sys2Proof.Machine
end

