-- ==== Sys2Proof/Machine/RegisterMoves.lean ====
section
/-! DEFINITION. SET_PTR, SWAP and SET_REG1 (44_register_moves.md R115 to R117). -/

namespace Sys2Proof.Machine

/-- SET_PTR: `PTR <- REG1` (44_register_moves.md R115). -/
def execSetPtr (s : State) : Host.Outcome State Fault Refusal :=
  .next (advancePc (writeReg s .ptr (readReg s .reg1)) 1)

/-- SWAP: REG1 and REG2 exchange, both read before either is written (44_register_moves.md R116). -/
def execSwap (s : State) : Host.Outcome State Fault Refusal :=
  let t1 := readReg s .reg1
  let t2 := readReg s .reg2
  .next (advancePc (writeReg (writeReg s .reg1 t2) .reg2 t1) 1)

/-- SET_REG1 k: `REG1 <- k`; PC advances past the operand (44_register_moves.md R117). -/
def execSetReg1 (k : Byte) (s : State) : Host.Outcome State Fault Refusal :=
  .next (advancePc (writeReg s .reg1 k) 2)

end Sys2Proof.Machine
end

