-- ==== Sys2Proof/Syntax.lean ====
section
/-! DEFINITION. The instruction set: nine instructions, one constructor for each row of spec/opcode_table.json
(30_encoding.md R55), and the forms an instruction takes before its operand is known to be a byte. -/

namespace Sys2Proof

/-- The nine mnemonics, in the order of the instruction table (30_encoding.md R55). -/
inductive Mnemonic where
  | halt | xor | add | load | store | setPtr | swap | setReg1 | jnz
deriving DecidableEq, Repr

/-- An instruction. The registers are implicit; the operand `k` of the two size-2 instructions is a byte, and all
256 values of it are legal (30_encoding.md R51, R53). -/
inductive Instr where
  /-- HALT (41_halt.md R100). -/
  | halt
  /-- XOR (42_alu.md R106). -/
  | xor
  /-- ADD (42_alu.md R107). -/
  | add
  /-- LOAD (43_memory_access.md R111). -/
  | load
  /-- STORE (43_memory_access.md R112). -/
  | store
  /-- SET_PTR (44_register_moves.md R115). -/
  | setPtr
  /-- SWAP (44_register_moves.md R116). -/
  | swap
  /-- SET_REG1 k (44_register_moves.md R117). -/
  | setReg1 (k : Byte)
  /-- JNZ k (45_branch.md R121). -/
  | jnz (k : Byte)
deriving DecidableEq, Repr

/-- All mnemonics, in table order (30_encoding.md R55). -/
def Mnemonic.all : List Mnemonic :=
  [.halt, .xor, .add, .load, .store, .setPtr, .swap, .setReg1, .jnz]

/-- Format `OK` has an operand byte, format `O` has none (30_encoding.md R51, R55). -/
def Mnemonic.hasOperand : Mnemonic → Bool
  | .halt => false
  | .xor => false
  | .add => false
  | .load => false
  | .store => false
  | .setPtr => false
  | .swap => false
  | .setReg1 => true
  | .jnz => true

/-- The mnemonic of an instruction. -/
def Instr.mnemonic : Instr → Mnemonic
  | .halt => .halt
  | .xor => .xor
  | .add => .add
  | .load => .load
  | .store => .store
  | .setPtr => .setPtr
  | .swap => .swap
  | .setReg1 _ => .setReg1
  | .jnz _ => .jnz

/-- The operand byte of an instruction, if it has one. -/
def Instr.operand : Instr → Option Byte
  | .halt => none
  | .xor => none
  | .add => none
  | .load => none
  | .store => none
  | .setPtr => none
  | .swap => none
  | .setReg1 k => some k
  | .jnz k => some k

/-- `OPC`: the opcode byte of each mnemonic, a parameter of the machine (30_encoding.md R54, 00_scope.md R5). -/
abbrev OpcodeMap := Mnemonic → Byte

/-- An instruction as the assembler reads it from a line: its operand may be missing, superfluous or too large
(30_encoding.md R62, R63). -/
structure RawInstr where
  mnemonic : Mnemonic
  operand : Option Nat
deriving DecidableEq, Repr

end Sys2Proof
end

