-- ==== Sys2Proof/Machine/Dispatch.lean ====
section
/-! DEFINITION. `Execute(ins, k)` with its PC update: one arm for each instruction (40_execution_cycle.md R81, R85). -/

namespace Sys2Proof.Machine

/-- The effect and the PC update of one instruction at PC (40_execution_cycle.md R81, R85). -/
def exec (i : Instr) (s : State) : Host.Outcome State Fault Refusal :=
  match i with
  | .halt => Sys2Proof.Machine.execHalt s
  | .xor => Sys2Proof.Machine.execXor s
  | .add => Sys2Proof.Machine.execAdd s
  | .load => Sys2Proof.Machine.execLoad s
  | .store => Sys2Proof.Machine.execStore s
  | .setPtr => Sys2Proof.Machine.execSetPtr s
  | .swap => Sys2Proof.Machine.execSwap s
  | .setReg1 k => Sys2Proof.Machine.execSetReg1 k s
  | .jnz k => Sys2Proof.Machine.execJnz k s

end Sys2Proof.Machine
end

