-- ==== Sys2Proof/WellFormed.lean ====
section
/-! DEFINITION. Well-formedness. An `Instr` needs no check of its own: its type holds exactly the legal instructions
(30_encoding.md R53, R55). What can be ill-formed is an assignment of opcode bytes (R54: it must be injective) and
an instruction as written in assembly text (R63: arity and range). -/

namespace Sys2Proof

/-- `OPC` gives nine distinct bytes (30_encoding.md R54). -/
def OpcodeMap.distinct (opc : OpcodeMap) : Bool :=
  decide (Mnemonic.all.map opc).Nodup

/-- The operand is present exactly when the mnemonic's size is 2; the failure is `OperandArityError`
(30_encoding.md R63). -/
def RawInstr.arityOk (r : RawInstr) : Bool :=
  r.operand.isSome == r.mnemonic.hasOperand

/-- An operand that is present fits 8 bits; the failure is `OperandRangeError` (30_encoding.md R63). -/
def RawInstr.operandFits (r : RawInstr) : Bool :=
  match r.operand with
  | none => true
  | some n => decide (n ≤ 255)

/-- Both checks of 30_encoding.md R63. -/
def RawInstr.wellFormed (r : RawInstr) : Bool :=
  r.arityOk && r.operandFits

end Sys2Proof
end

