-- ==== Sys2Proof/Decode.lean ====
section
/-! DEFINITION. The decoder and, after it, the encoder (30_encoding.md R50 to R57). Both take the opcode assignment
`OPC` as an argument; `defaultOpc` is the default of R54, which is the spec's own choice (92_eei_decisions.md D1,
log 1). -/

namespace Sys2Proof

/-- The default opcode bytes (30_encoding.md R54). DESIGN CHOICE of the spec (D1), unsafe for a claim about concrete
program bytes: log 1. -/
def defaultOpc : OpcodeMap
  | .halt => 0x00
  | .xor => 0x01
  | .add => 0x02
  | .load => 0x03
  | .store => 0x04
  | .setPtr => 0x05
  | .swap => 0x06
  | .setReg1 => 0x07
  | .jnz => 0x08

/-- The size of an instruction in bytes, a function of the mnemonic alone (30_encoding.md R50, R52, R55). -/
def Mnemonic.size (m : Mnemonic) : Nat :=
  if m.hasOperand then 2 else 1

/-- The size of an instruction in bytes (30_encoding.md R55). -/
def Instr.size (i : Instr) : Nat :=
  i.mnemonic.size

/-- `Decode(b)`: the mnemonic whose opcode byte is `b`, or `none` for an invalid opcode. It reads nothing but `b`
(30_encoding.md R56, R57). -/
def decodeOpcode (opc : OpcodeMap) (b : Byte) : Option Mnemonic :=
  Mnemonic.all.find? (fun m => opc m == b)

/-- The instruction with this mnemonic and this operand byte; format `O` has no operand and ignores the byte
(30_encoding.md R51). -/
def instrOf : Mnemonic → Byte → Instr
  | .halt, _ => .halt
  | .xor, _ => .xor
  | .add, _ => .add
  | .load, _ => .load
  | .store, _ => .store
  | .setPtr, _ => .setPtr
  | .swap, _ => .swap
  | .setReg1, k => .setReg1 k
  | .jnz, k => .jnz k

/-- Why bytes are not an instruction. -/
inductive DecodeError where
  /-- There is no byte at all. -/
  | noBytes
  /-- The first byte is not a known opcode (30_encoding.md R57). -/
  | invalidOpcode (b : Byte)
  /-- The operand byte of a size-2 instruction is missing. The machine never meets this: its addresses wrap, so
  there is always a next byte (20_memory.md R38). -/
  | missingOperand (m : Mnemonic)
deriving DecidableEq, Repr

/-- Read one instruction from the front of a list of bytes and give back the rest (30_encoding.md R51, R52, R56).
Total: every list of bytes gives an instruction or an error by name. -/
def decode (opc : OpcodeMap) : List Byte → Except DecodeError (Instr × List Byte)
  | [] => .error .noBytes
  | b :: rest =>
    match decodeOpcode opc b with
    | none => .error (.invalidOpcode b)
    | some m =>
      match m.hasOperand, rest with
      | false, _ => .ok (instrOf m 0, rest)
      | true, [] => .error (.missingOperand m)
      | true, k :: rest' => .ok (instrOf m k, rest')

/-- The bytes of an instruction: its opcode byte, then its operand if it has one (30_encoding.md R51). -/
def encode (opc : OpcodeMap) (i : Instr) : List Byte :=
  opc i.mnemonic :: i.operand.toList

/-- The bytes of an instruction whose bits are `w`, numbered as spec/opcode_table.json numbers them: the byte at `pc`
is bits 7 to 0, the next is bits 15 to 8; bits from `nbits` on are 0. Two bytes, the longest instruction. -/
def tableBytes (nbits w : Nat) : Byte × Byte :=
  let v := w % 2 ^ nbits
  (BitVec.ofNat 8 v, BitVec.ofNat 8 (v / 256))

/-- The instruction the decoder reads from a row's word, under the default opcode bytes. -/
def decodeTableWord (nbits w : Nat) : Option Instr :=
  let bytes := tableBytes nbits w
  match decode defaultOpc [bytes.1, bytes.2] with
  | .ok (i, _) => some i
  | .error _ => none

end Sys2Proof
end

