-- ==== Sys2Proof/Machine/Fetch.lean ====
section
/-! DEFINITION. The fetch and decode part of `Step()` (40_execution_cycle.md R81 to R84, R87), under any opcode
assignment. -/

namespace Sys2Proof.Machine

/-- Which of the three outcomes of 40_execution_cycle.md R87 a step has. -/
inductive StepKind where
  /-- `Executed(ins)`. -/
  | executed (i : Instr)
  /-- `HaltedNoOp`, not an error (R82). -/
  | haltedNoOp
  /-- `InvalidOpcode(a, op)` (R83). -/
  | invalidOpcode (a op : Byte)
deriving DecidableEq, Repr

/-- The bytes a step fetches: the opcode byte at PC and, only for a size-2 instruction, the operand byte at PC + 1
(40_execution_cycle.md R81, R83, R84). -/
def fetchBytes (opc : OpcodeMap) (s : State) : List Byte :=
  let op := memRead s s.pc
  match decodeOpcode opc op with
  | none => [op]
  | some m => if m.hasOperand then [op, operandByte s] else [op]

/-- The checks of `Step()` in their order: HALTED first, without a fetch, then the opcode byte
(40_execution_cycle.md R81, R82, R87; 60_exceptions.md R135; log 4). -/
def stepKind (opc : OpcodeMap) (s : State) : StepKind :=
  match s.st with
  | .halted => .haltedNoOp
  | .running =>
    match decode opc (fetchBytes opc s) with
    | .ok (i, _) => .executed i
    | .error _ => .invalidOpcode s.pc (memRead s s.pc)

/-- Lay an instruction's bits out where the next step fetches: the byte at PC and the byte at PC + 1, in a RUNNING
machine (a HALTED one fetches nothing, 40_execution_cycle.md R82; log 2). -/
def placeAtPc (s : State) (nbits w : Nat) : State :=
  let bytes := tableBytes nbits w
  setExecState (memWrite (memWrite s s.pc bytes.1) (operandAddress s) bytes.2) .running

end Sys2Proof.Machine
end

