-- ==== Sys2Proof/Machine/Cycle.lean ====
section
/-! DEFINITION. `Step()` under any opcode assignment (40_execution_cycle.md R81, R87). -/

namespace Sys2Proof.Machine

/-- `Step()`: a no-op while HALTED, `InvalidOpcode` on an unknown opcode byte, else the instruction
(40_execution_cycle.md R81, R82, R83, R87). -/
def stepWith (opc : OpcodeMap) (s : State) : Host.Outcome State Fault Refusal :=
  match stepKind opc s with
  | .haltedNoOp => .next s
  | .invalidOpcode a op => raiseInvalidOpcode a op
  | .executed i => exec i s

/-- The state a step leaves behind: a step that fails leaves the state it found (40_execution_cycle.md R83, R86). -/
def stateAfter (opc : OpcodeMap) (s : State) : State :=
  match stepWith opc s with
  | .next t => t
  | .fault _ => s
  | .refused _ => s

end Sys2Proof.Machine
end

