-- ==== Sys2Proof/Machine/Step.lean ====
section
/-! DEFINITION. The step of the machine under the default opcode bytes (30_encoding.md R54, log 1), and the host's
way to place the next instruction. -/

namespace Sys2Proof.Machine

/-- `Step()` with the default opcode bytes (40_execution_cycle.md R81; 30_encoding.md R54; log 1). -/
def step (s : State) : Host.Outcome State Fault Refusal :=
  stepWith defaultOpc s

/-- The state with an instruction's bits placed where `step` fetches next (log 2). -/
def State.withFetchWord (s : State) (nbits w : Nat) : State :=
  placeAtPc s nbits w

end Sys2Proof.Machine
end

