-- ==== Sys2Proof/Machine/Assembler.lean ====
section
/-! DEFINITION. The assembly notation of the instruction set and the assembler's contract
`assemble(lines) -> Map<address, bytes>` (30_encoding.md R60 to R67). It is software outside the block (00_scope.md
R3) and touches the machine only through the host's program/assemble operation (Machine/Debugger.lean). The lexical
details the spec does not give are log 12. -/

namespace Sys2Proof.Machine

/-- A line of assembly text, as its characters. -/
abbrev Text := List Char

/-- The errors of the host interface, by name (60_exceptions.md R131, R139). Each leaves the machine as it was. -/
inductive HostError where
  /-- An address from the host outside 0..255: addbp, delbp, edit, save, inspection (R139; 20_memory.md R34; log 11). -/
  | invalidAddress
  /-- The assembler emits past address 255, or a label is out of range (R139; 30_encoding.md R64, R66; log 11). -/
  | addressOverflow
  /-- The target of an edit is neither a register name nor a memory address (R139, R147). -/
  | invalidTarget
  /-- A value or operand does not fit 8 bits (R139; 30_encoding.md R63). -/
  | operandRangeError
  /-- A mnemonic that is not in the table (R139; 30_encoding.md R63). -/
  | unknownMnemonic
  /-- An operand is present or absent against the size (R139; 30_encoding.md R63). -/
  | operandArityError
  /-- A binary load of more than 256 bytes (R139; 70_reset_and_hazards.md R165). -/
  | programTooLarge
  /-- A clock rate that is not above 0 (R139, R150). -/
  | invalidRate
  /-- A line that is no label and no mnemonic line, or an operand that is no numeral: the model's own name, the spec
  gives none (DESIGN CHOICE, log 12). Safe: such a line is refused and nothing is merged. -/
  | malformedLine
deriving DecidableEq, Repr

/-- The spelling of a mnemonic (30_encoding.md R55, R62). -/
def mnemonicName : Mnemonic → Text
  | .halt => ['H', 'A', 'L', 'T']
  | .xor => ['X', 'O', 'R']
  | .add => ['A', 'D', 'D']
  | .load => ['L', 'O', 'A', 'D']
  | .store => ['S', 'T', 'O', 'R', 'E']
  | .setPtr => ['S', 'E', 'T', '_', 'P', 'T', 'R']
  | .swap => ['S', 'W', 'A', 'P']
  | .setReg1 => ['S', 'E', 'T', '_', 'R', 'E', 'G', '1']
  | .jnz => ['J', 'N', 'Z']

/-- The mnemonic spelled exactly so, upper case and underscore included (30_encoding.md R62). -/
def mnemonicOf (t : Text) : Option Mnemonic :=
  Mnemonic.all.find? (fun m => mnemonicName m == t)

/-- The value of a digit in base 10 or 16; both cases of a hexadecimal digit (log 12). -/
def digitValue (base : Nat) (c : Char) : Option Nat :=
  let n := c.toNat
  if 48 ≤ n ∧ n ≤ 57 then some (n - 48)
  else if base = 16 ∧ 65 ≤ n ∧ n ≤ 70 then some (n - 55)
  else if base = 16 ∧ 97 ≤ n ∧ n ≤ 102 then some (n - 87)
  else none

/-- Digits after a value already read. -/
def readDigits (base : Nat) : Nat → Text → Option Nat
  | acc, [] => some acc
  | acc, c :: rest =>
    match digitValue base c with
    | none => none
    | some d => readDigits base (base * acc + d) rest

/-- One or more digits. -/
def readNumeral (base : Nat) : Text → Option Nat
  | [] => none
  | c :: rest => readDigits base 0 (c :: rest)

/-- The digits after `0x` in an operand: one or two hexadecimal digits (30_encoding.md R62; decision D12). -/
def readHexOperand : Text → Option Nat
  | [c] => readNumeral 16 [c]
  | [c, d] => readNumeral 16 [c, d]
  | _ => none

/-- An operand literal: `0x` and one or two hexadecimal digits, or decimal digits (30_encoding.md R62; decision D12).
DESIGN CHOICE where the spec is silent: a literal has no sign, so `-1` is no literal and not one out of range, and
neither are three hexadecimal digits after `0x` or digits after `0X`; a line with such an operand is
`malformedLine` (log 12). -/
def readLiteral : Text → Option Nat
  | '0' :: 'x' :: rest => readHexOperand rest
  | t => readNumeral 10 t

/-- The label directive `address_XXh:` (30_encoding.md R61): the number, if the line has that form. DESIGN CHOICE where
the spec is silent: XX is one or more hexadecimal digits without a sign, so `address_-1h:` is no label and not one out
of range (log 12). -/
def readLabel : Text → Option Nat
  | 'a' :: 'd' :: 'd' :: 'r' :: 'e' :: 's' :: 's' :: '_' :: rest =>
    match rest.reverse with
    | ':' :: 'h' :: digits => readNumeral 16 digits.reverse
    | _ => none
  | _ => none

/-- The words of a line, separated by single spaces (log 12). -/
def splitWords : Text → List Text
  | [] => [[]]
  | c :: rest =>
    if c = ' ' then [] :: splitWords rest
    else
      match splitWords rest with
      | [] => [[c]]
      | w :: ws => (c :: w) :: ws

/-- A line as the assembler sees it (30_encoding.md R60). -/
inductive AsmLine where
  /-- `address_XXh:` (R61). -/
  | label (a : Nat)
  /-- `MNEMONIC` or `MNEMONIC operand` (R62), the words not yet checked. -/
  | code (name : Text) (operands : List Text)
deriving DecidableEq, Repr

/-- Tell a label from a mnemonic line (30_encoding.md R60 to R62). DESIGN CHOICE where the spec is silent:
a line that is no label, `address_-1h:` too, is a mnemonic line (and then gets `unknownMnemonic`), and a blank line or a
doubled space is malformed (log 12). -/
def readLine (t : Text) : Except HostError AsmLine :=
  match readLabel t with
  | some a => .ok (.label a)
  | none =>
    let words := splitWords t
    if words.any (fun w => w.isEmpty) then .error .malformedLine
    else
      match words with
      | [] => .error .malformedLine
      | name :: operands => .ok (.code name operands)

/-- The arity and range checks of an instruction line (30_encoding.md R63), in that order (log 14). -/
def checkRaw (r : RawInstr) : Except HostError Instr :=
  if r.arityOk then
    if r.operandFits then .ok (instrOf r.mnemonic (BitVec.ofNat 8 (r.operand.getD 0)))
    else .error .operandRangeError
  else .error .operandArityError

/-- The instruction of a mnemonic line, or why it is rejected (30_encoding.md R62, R63). -/
def lineInstr (name : Text) (operands : List Text) : Except HostError Instr :=
  match mnemonicOf name with
  | none => .error .unknownMnemonic
  | some m =>
    match operands with
    | [] => checkRaw ⟨m, none⟩
    | [t] =>
      if m.hasOperand then
        match readLiteral t with
        | none => .error .malformedLine
        | some n => checkRaw ⟨m, some n⟩
      else .error .operandArityError
    | _ => .error .operandArityError

/-- Assemble lines from the emission address `at_` on: a label sets it, an instruction line emits its bytes and moves
it by the size; emitting past 255 fails (30_encoding.md R61 to R66). The result lists the bytes in the order of
emission. -/
def assembleFrom (opc : OpcodeMap) : Nat → List Text → Except HostError (List (Byte × Byte))
  | _, [] => .ok []
  | at_, t :: rest =>
    match readLine t with
    | .error e => .error e
    | .ok (.label a) =>
      if a < Config.memSize then assembleFrom opc a rest else .error .addressOverflow
    | .ok (.code name operands) =>
      match lineInstr name operands with
      | .error e => .error e
      | .ok i =>
        if at_ + i.size ≤ Config.memSize then
          match assembleFrom opc (at_ + i.size) rest with
          | .error e => .error e
          | .ok more => .ok (placeBytes at_ (encode opc i) ++ more)
        else .error .addressOverflow

/-- Keep the last byte emitted for each address, so that the result is a map (30_encoding.md R60; log 13). -/
def lastForEach : List (Byte × Byte) → List (Byte × Byte)
  | [] => []
  | p :: rest =>
    if rest.any (fun q => q.1 == p.1) then lastForEach rest else p :: lastForEach rest

/-- `assemble(lines)`: the address to byte map, or the first failure; a failure emits nothing (30_encoding.md R60,
R63). The emission address starts at 0 (R64, decision D14, log 12). -/
def assemble (opc : OpcodeMap) (lines : List Text) : Except HostError (List (Byte × Byte)) :=
  match assembleFrom opc Config.loadBase lines with
  | .error e => .error e
  | .ok bytes => .ok (lastForEach bytes)

/-- A decimal digit as a character. -/
def digitChar (n : Nat) : Char :=
  Char.ofNat (48 + n)

/-- A byte as a decimal literal without leading zeros (30_encoding.md R62, R67). -/
def decimalText (b : Byte) : Text :=
  let n := b.toNat
  if n < 10 then [digitChar n]
  else if n < 100 then [digitChar (n / 10), digitChar (n % 10)]
  else [digitChar (n / 100), digitChar (n / 10 % 10), digitChar (n % 10)]

/-- An instruction as a line of assembly text: the mnemonic, then the operand in a literal form of the assembler
(30_encoding.md R67). DESIGN CHOICE: R67 does not say which of the two forms, decimal or hexadecimal, is printed; the
model prints decimal (log 24). -/
def instrText (i : Instr) : Text :=
  match i.operand with
  | none => mnemonicName i.mnemonic
  | some k => mnemonicName i.mnemonic ++ ' ' :: decimalText k

end Sys2Proof.Machine
end

