-- ==== Sys2Proof/Machine/Events.lean ====
section
/-! DEFINITION. What a step lets the outside see besides the state: its memory accesses (20_memory.md R39), its
`DisplayUpdate` events (R32) and its trace record (40_execution_cycle.md R88). All are functions of the state before
the step, so State stays what 10_state.md R10 says it is (log 5). -/

namespace Sys2Proof.Machine

/-- One memory access of one byte (20_memory.md R39). -/
inductive Access where
  | read (a : Byte)
  | write (a v : Byte)
deriving DecidableEq, Repr

/-- The reads of the fetch: the opcode byte, then the operand byte of a size-2 instruction (20_memory.md R39). -/
def fetchAccesses (opc : OpcodeMap) (s : State) : List Access :=
  match decodeOpcode opc (memRead s s.pc) with
  | none => [.read s.pc]
  | some m => if m.hasOperand then [.read s.pc, .read (operandAddress s)] else [.read s.pc]

/-- The accesses of the execute phase: one read for LOAD, one write for STORE (20_memory.md R39). -/
def execAccesses (i : Instr) (s : State) : List Access :=
  match i with
  | .halt => []
  | .xor => []
  | .add => []
  | .load => [.read (effectiveAddress s)]
  | .store => [.write (effectiveAddress s) (readReg s .reg1)]
  | .setPtr => []
  | .swap => []
  | .setReg1 _ => []
  | .jnz _ => []

/-- The accesses of one step, in order; none while HALTED (20_memory.md R39). -/
def stepAccesses (opc : OpcodeMap) (s : State) : List Access :=
  match stepKind opc s with
  | .haltedNoOp => []
  | .invalidOpcode _ _ => fetchAccesses opc s
  | .executed i => fetchAccesses opc s ++ execAccesses i s

/-- The display events of one access: those of its `MemWrite` (20_memory.md R31, R32). -/
def accessUpdates : Access → List DisplayUpdate
  | .read _ => []
  | .write a v => displayUpdates a v

/-- The `DisplayUpdate` events of one step (20_memory.md R32; decision D20; log 5). -/
def stepUpdates (opc : OpcodeMap) (s : State) : List DisplayUpdate :=
  (stepAccesses opc s).flatMap accessUpdates

/-- What the renderer does with an event: the slot shows the byte (20_memory.md R32, R47). -/
def showUpdate (d : List Byte) (u : DisplayUpdate) : List Byte :=
  d.set u.slot u.char

/-- A trace record: PC before execution, opcode byte, operand if any, resulting register values
(40_execution_cycle.md R88). -/
structure TraceRecord where
  pcBefore : Byte
  opcode : Byte
  operand : Option Byte
  reg1 : Byte
  reg2 : Byte
  ptr : Byte
  pc : Byte
deriving DecidableEq, Repr

/-- The trace record of a step; only an `Executed` step has one (40_execution_cycle.md R88; decision D10; log 5). -/
def stepTrace (opc : OpcodeMap) (s : State) : Option TraceRecord :=
  match stepKind opc s with
  | .haltedNoOp => none
  | .invalidOpcode _ _ => none
  | .executed i =>
    let t := stateAfter opc s
    some ⟨s.pc, memRead s s.pc, i.operand, t.reg1, t.reg2, t.ptr, t.pc⟩

end Sys2Proof.Machine
end

