-- ==== Sys2Proof/Machine/Debugger.lean ====
section
/-! DEFINITION. The host's moves on the block, each wholly between two steps (60_exceptions.md R144 to R157;
70_reset_and_hazards.md R165; 20_memory.md R42). The breakpoint set and the clock rate are host state (10_state.md
R24), so they stand in `Session`, around the machine's State and not in it. -/

namespace Sys2Proof.Machine

/-- The machine with the host's own long-lived state (10_state.md R24). -/
structure Session where
  machine : State
  /-- The breakpoint set: addresses 0..255, kept in rising order without repeats. -/
  breakpoints : List Byte
  /-- The rate of the last clock command; `none` while none was given, the spec gives no default (log 17). -/
  clockRate : Option Int
deriving DecidableEq, Repr

/-- Power-on: the machine after power-on and an empty breakpoint set (70_reset_and_hazards.md R160). -/
def Session.powerOn : Session where
  machine := State.reset
  breakpoints := []
  clockRate := none

/-- The target of an edit command as the user gives it (60_exceptions.md R147). -/
inductive EditTarget where
  | register (name : Text)
  | memory (a : Int)
deriving DecidableEq, Repr

/-- The host's operations (60_exceptions.md R144 to R157; 70_reset_and_hazards.md R165). Addresses and values are
integers here, since the host may give one that is out of range (20_memory.md R34). -/
inductive HostOp where
  /-- `step` (R144). -/
  | step
  /-- `run` (R145). `stops` are the samples of the stop request, one for each iteration (R134); the run is followed
  for at most that many iterations (log 15). -/
  | run (stops : List Bool)
  /-- `addbp addr` (R146). -/
  | addbp (a : Int)
  /-- `delbp addr` (R146). -/
  | delbp (a : Int)
  /-- `edit target value` (R147). -/
  | edit (target : EditTarget) (value : Int)
  /-- `program` and `assemble`, one operation (R148). -/
  | program (lines : List Text)
  /-- `reset` (R149). -/
  | reset
  /-- `clock rate` (R150). -/
  | clock (rate : Int)
  /-- Binary load (70_reset_and_hazards.md R165). -/
  | load (bytes : List Byte)
  /-- Save up to an address, inclusive (R153). -/
  | save (hi : Int)
  /-- Read the display (R152). -/
  | readDisplay
  /-- Inspect a register or PC (R157). -/
  | readRegister (r : RegName)
  /-- Inspect a memory cell (R157). -/
  | readMemory (a : Int)
  /-- Inspect `st` (R157). -/
  | readExecState
deriving DecidableEq, Repr

/-- Why a run came back (60_exceptions.md R145). -/
inductive StopReason where
  | stoppedHalted
  | stoppedByUser
  | stoppedAtBreakpoint
  | failed (a op : Byte)
  /-- The samples given to the model are used up; the run itself goes on (log 15). -/
  | stillRunning
deriving DecidableEq, Repr

/-- What the host gets back. -/
inductive Reply where
  | done
  | stepped (k : StepKind)
  | ran (why : StopReason)
  | rejected (e : HostError)
  | bytes (bs : List Byte)
  | byte (v : Byte)
  | execState (st : ExecState)
deriving DecidableEq, Repr

/-- The result of one move: the session after it, the reply, the trace records (60_exceptions.md R151) and the
display events it emitted. -/
structure Move where
  session : Session
  reply : Reply
  traces : List TraceRecord
  updates : List DisplayUpdate
deriving DecidableEq, Repr

/-- A byte from an integer the host gives, if it is in 0..255 (20_memory.md R34; 60_exceptions.md R139). -/
def hostByte (n : Int) : Option Byte :=
  if 0 ≤ n ∧ n ≤ 255 then some (BitVec.ofNat 8 n.toNat) else none

/-- Insert into the breakpoint set (60_exceptions.md R146). -/
def insertBreakpoint (a : Byte) : List Byte → List Byte
  | [] => [a]
  | b :: rest =>
    if a = b then b :: rest
    else if a.toNat < b.toNat then a :: b :: rest
    else b :: insertBreakpoint a rest

/-- Remove from the breakpoint set; removing an address that is not in it changes nothing (60_exceptions.md R146;
log 21). -/
def removeBreakpoint (a : Byte) (bp : List Byte) : List Byte :=
  bp.filter (fun b => b != a)

/-- The form the breakpoint set is kept in: strictly rising. -/
def breakpointsRise : List Byte → Bool
  | [] => true
  | [_] => true
  | a :: b :: rest => decide (a.toNat < b.toNat) && breakpointsRise (b :: rest)

/-- What every move keeps: memory in canonical form, breakpoints rising, a clock rate that is set is above 0. -/
def Session.wf (x : Session) : Bool :=
  x.machine.mem.wf && breakpointsRise x.breakpoints && x.clockRate.all (fun r => decide (0 < r))

/-- The result of a run. -/
structure RunResult where
  why : StopReason
  machine : State
  traces : List TraceRecord
  updates : List DisplayUpdate
deriving DecidableEq, Repr

/-- The loop of 60_exceptions.md R145: HALTED, stop request, breakpoint are tested in this order before each step
(decisions D9, D11; log 16); an `InvalidOpcode` aborts the run. One element of `stops` is the sample of one
iteration. -/
def runLoop (opc : OpcodeMap) (bp : List Byte) : List Bool → State → RunResult
  | [], s =>
    match s.st with
    | .halted => ⟨.stoppedHalted, s, [], []⟩
    | .running => ⟨.stillRunning, s, [], []⟩
  | stop :: rest, s =>
    if s.st = .halted then ⟨.stoppedHalted, s, [], []⟩
    else if stop then ⟨.stoppedByUser, s, [], []⟩
    else if bp.contains s.pc then ⟨.stoppedAtBreakpoint, s, [], []⟩
    else
      match stepKind opc s with
      | .invalidOpcode a op => ⟨.failed a op, s, [], []⟩
      | _ =>
        let r := runLoop opc bp rest (stateAfter opc s)
        ⟨r.why, r.machine, (stepTrace opc s).toList ++ r.traces, stepUpdates opc s ++ r.updates⟩

/-- The spelling of a register name (00_scope.md section 7; 60_exceptions.md R147). -/
def registerOf (t : Text) : Option RegName :=
  if t = ['R', 'E', 'G', '1'] then some .reg1
  else if t = ['R', 'E', 'G', '2'] then some .reg2
  else if t = ['P', 'T', 'R'] then some .ptr
  else if t = ['P', 'C'] then some .pc
  else none

/-- `edit`: overwrite one register or one cell, with the cell's display events; the target is checked before the value
(60_exceptions.md R147; log 14). -/
def editMachine (target : EditTarget) (value : Int) (s : State) : Except HostError (State × List DisplayUpdate) :=
  match target with
  | .register name =>
    match registerOf name, hostByte value with
    | none, _ => .error .invalidTarget
    | some _, none => .error .operandRangeError
    | some r, some v => .ok (writeReg s r v, [])
  | .memory a =>
    match hostByte a, hostByte value with
    | none, _ => .error .invalidAddress
    | some _, none => .error .operandRangeError
    | some a, some v => .ok (memWrite s a v, displayUpdates a v)

/-- `save`: the bytes `M[0], ..., M[hi]` (60_exceptions.md R153). -/
def savedBytes (s : State) (hi : Byte) : List Byte :=
  (List.range (hi.toNat + 1)).map s.mem.read

/-- A move that is rejected: nothing changes (60_exceptions.md R139). -/
def rejectMove (x : Session) (e : HostError) : Move :=
  ⟨x, .rejected e, [], []⟩

/-- A move that changes the machine and emits display events. -/
def machineMove (x : Session) (s : State) (updates : List DisplayUpdate) : Move :=
  ⟨{ x with machine := s }, .done, [], updates⟩

/-- A move that only reads. -/
def readMove (x : Session) (r : Reply) : Move :=
  ⟨x, r, [], []⟩

/-- One move of the host (60_exceptions.md R144 to R157; 70_reset_and_hazards.md R161, R165). -/
def hostMove (opc : OpcodeMap) (op : HostOp) (x : Session) : Move :=
  match op with
  | .step =>
    ⟨{ x with machine := stateAfter opc x.machine }, .stepped (stepKind opc x.machine),
      (stepTrace opc x.machine).toList, stepUpdates opc x.machine⟩
  | .run stops =>
    let r := runLoop opc x.breakpoints stops x.machine
    ⟨{ x with machine := r.machine }, .ran r.why, r.traces, r.updates⟩
  | .addbp a =>
    match hostByte a with
    | none => rejectMove x .invalidAddress
    | some b => ⟨{ x with breakpoints := insertBreakpoint b x.breakpoints }, .done, [], []⟩
  | .delbp a =>
    match hostByte a with
    | none => rejectMove x .invalidAddress
    | some b => ⟨{ x with breakpoints := removeBreakpoint b x.breakpoints }, .done, [], []⟩
  | .edit target value =>
    match editMachine target value x.machine with
    | .error e => rejectMove x e
    | .ok (s, updates) => machineMove x s updates
  | .program lines =>
    match assemble opc lines with
    | .error e => rejectMove x e
    | .ok bytes => machineMove x (mergeBytes x.machine bytes) (mergeUpdates bytes)
  | .reset => machineMove x (bootReset x.machine) []
  | .clock rate =>
    if 0 < rate then ⟨{ x with clockRate := some rate }, .done, [], []⟩ else rejectMove x .invalidRate
  | .load bytes =>
    if bytes.length ≤ Config.memSize then
      let placed := placeBytes Config.loadBase bytes
      machineMove x (mergeBytes x.machine placed) (mergeUpdates placed)
    else rejectMove x .programTooLarge
  | .save hi =>
    match hostByte hi with
    | none => rejectMove x .invalidAddress
    | some b => readMove x (.bytes (savedBytes x.machine b))
  | .readDisplay => readMove x (.bytes (display x.machine))
  | .readRegister r => readMove x (.byte (readReg x.machine r))
  | .readMemory a =>
    match hostByte a with
    | none => rejectMove x .invalidAddress
    | some b => readMove x (.byte (memRead x.machine b))
  | .readExecState => readMove x (.execState x.machine.st)

end Sys2Proof.Machine
end

