-- ==== Sys2Proof/Safety.lean ====
section
/-! DEFINITION. What counts as a safe run, in the terms claims use. The one thing that can go wrong inside the machine
is an `InvalidOpcode` step (60_exceptions.md R130); a run that never ends is no error (70_reset_and_hazards.md
R172). -/

namespace Sys2Proof.Machine

/-- `n` steps under an opcode assignment, stopping at the first fault. -/
def stepsWith (opc : OpcodeMap) : Nat → State → Host.Outcome State Fault Refusal
  | 0, s => .next s
  | n + 1, s =>
    match stepWith opc s with
    | .next t => stepsWith opc n t
    | .fault f => .fault f
    | .refused r => .refused r

/-- The run of `n` steps meets no fault: every step up to the `n`-th has a next state. -/
def safeFor (opc : OpcodeMap) (n : Nat) (s : State) : Prop :=
  ∃ t, stepsWith opc n s = .next t

/-- The run reaches HALTED, the only end of a run from inside the machine (40_execution_cycle.md R89). -/
def reachesHalt (opc : OpcodeMap) (s : State) : Prop :=
  ∃ n t, stepsWith opc n s = .next t ∧ t.st = .halted

end Sys2Proof.Machine
end

