-- ==== Sys2Proof/Certificates/Slice0/Obligations.lean ====
section
/-! DEFINITION. The statements about the model. `exec i s = .next t` says that the instruction completes; an update
`{ s with … }` says that every field it does not name, memory and `st` among them, is unchanged (the frame).
A docstring names the rule of spec/ a statement formalises; where it rests on a choice or an inference of the spec or
of the model, it says so and names the log entry. -/

open Sys2Proof Sys2Proof.Machine

/-! ## Power-on and reset -/

/-- After power-on all registers are 0, the machine is RUNNING, every cell reads 0, every display slot is 0x00, and the
breakpoint set is empty (70_reset_and_hazards.md section 1). That such a slot counts as unset is decision D2, log 8. -/
def Obligations.PowerOnState : Prop :=
  State.reset.reg1 = 0 ∧ State.reset.reg2 = 0 ∧ State.reset.ptr = 0 ∧ State.reset.pc = 0 ∧
    State.reset.st = .running ∧ (∀ a : Byte, memRead State.reset a = 0) ∧
    (∀ i, i < 16 → displaySlot State.reset i = 0 ∧ slotUnset State.reset i = true) ∧
    Session.powerOn.machine = State.reset ∧ Session.powerOn.breakpoints = []

/-- Boot and reset zero the four registers, set RUNNING and leave memory and display alone, from every state; no
`DisplayUpdate` is emitted (70_reset_and_hazards.md R161). -/
def Obligations.ResetZeroesRegistersOnly : Prop :=
  ∀ (opc : OpcodeMap) (x : Session),
    let m := hostMove opc .reset x
    m.session.machine = bootReset x.machine ∧
      (bootReset x.machine).reg1 = 0 ∧ (bootReset x.machine).reg2 = 0 ∧ (bootReset x.machine).ptr = 0 ∧
      (bootReset x.machine).pc = 0 ∧ (bootReset x.machine).st = .running ∧
      (bootReset x.machine).mem = x.machine.mem ∧ display (bootReset x.machine) = display x.machine ∧ m.updates = []

/-- Two resets leave what one leaves; breakpoints and clock rate stay. The last is the spec's decision D19, log 18. -/
def Obligations.ResetIsIdempotent : Prop :=
  ∀ (opc : OpcodeMap) (x : Session),
    let once := (hostMove opc .reset x).session
    (hostMove opc .reset once).session = once ∧ (hostMove opc .reset x).reply = .done ∧
      once.breakpoints = x.breakpoints ∧ once.clockRate = x.clockRate

/-- With nothing loaded, the first step executes the instruction whose opcode byte is 0, or fails if there is none;
under the default opcode bytes it halts at PC 0. An inference of the spec (70_reset_and_hazards.md section 2) and its
choice D1, log 1. -/
def Obligations.EmptyMachineRunsByteZero : Prop :=
  step State.reset = .next { State.reset with st := .halted } ∧
    (∀ opc : OpcodeMap, (∀ m, opc m ≠ 0) → stepWith opc State.reset = .fault (.invalidOpcode 0 0)) ∧
    ∀ (opc : OpcodeMap) (m : Mnemonic), opc.distinct = true → opc m = 0 →
      stepWith opc State.reset = exec (instrOf m 0) State.reset

/-! ## The nine instructions -/

/-- HALT sets `st` to HALTED and changes nothing else, PC included; every later step is `HaltedNoOp`, an edit does not
make the machine run again, reset does; a run stops after the HALT, or before it at a breakpoint; its step has a trace
record (41_halt.md R100). -/
def Obligations.HaltResult : Prop :=
  ∀ (opc : OpcodeMap) (s : State),
    exec .halt s = .next { s with st := .halted } ∧
      encode opc .halt = [opc .halt] ∧
      (∀ n, stepsWith opc n { s with st := .halted } = .next { s with st := .halted } ∧
        stepKind opc { s with st := .halted } = .haltedNoOp) ∧
      (bootReset { s with st := .halted }).st = .running ∧ (bootReset { s with st := .halted }).pc = 0 ∧
      (∀ (x : Session) (target : EditTarget) (value : Int), x.machine.st = .halted →
        (hostMove opc (.edit target value) x).session.machine.st = .halted) ∧
      (stepKind opc s = .executed .halt →
        stepTrace opc s = some ⟨s.pc, opc .halt, none, s.reg1, s.reg2, s.ptr, s.pc⟩ ∧
        ∀ (bp : List Byte) (stops : List Bool),
          let r := runLoop opc bp (false :: stops) s
          (s.pc ∉ bp → r.why = .stoppedHalted ∧ r.machine = { s with st := .halted }) ∧
            (s.pc ∈ bp → r.why = .stoppedAtBreakpoint ∧ r.machine = s))

/-- XOR: bit i of REG1 becomes bit i of REG1 xor bit i of REG2, PC advances by 1, all else is unchanged; equal
operands give 0 and a second XOR restores REG1 (42_alu.md R106). -/
def Obligations.XorResult : Prop :=
  ∀ (opc : OpcodeMap) (s : State),
    encode opc .xor = [opc .xor] ∧
      ∃ t, exec .xor s = .next t ∧
        (∀ i, i < 8 → t.reg1.getLsbD i = (s.reg1.getLsbD i ^^ s.reg2.getLsbD i)) ∧
        t = { s with reg1 := t.reg1, pc := s.pc + 1 } ∧
        (s.reg1 = s.reg2 → t.reg1 = 0) ∧
        ∃ u, exec .xor t = .next u ∧ u = { s with pc := s.pc + 2 }

/-- ADD: REG1 becomes (REG1 + REG2) mod 256, PC advances by 1, all else is unchanged: no carry is kept
(42_alu.md R107). -/
def Obligations.AddResult : Prop :=
  ∀ (opc : OpcodeMap) (s : State),
    encode opc .add = [opc .add] ∧
      ∃ t, exec .add s = .next t ∧
        t.reg1.toNat = (s.reg1.toNat + s.reg2.toNat) % 256 ∧
        t = { s with reg1 := t.reg1, pc := s.pc + 1 }

/-- LOAD: REG1 becomes the byte at PTR, PC advances by 1, all else is unchanged, no display event; with PTR = PC it
reads its own opcode byte (43_memory_access.md R111). -/
def Obligations.LoadResult : Prop :=
  ∀ (opc : OpcodeMap) (s : State),
    encode opc .load = [opc .load] ∧ effectiveAddress s = s.ptr ∧
      exec .load s = .next { s with reg1 := memRead s (effectiveAddress s), pc := s.pc + 1 } ∧
      (stepKind opc s = .executed .load →
        stepUpdates opc s = [] ∧ stepAccesses opc s = [.read s.pc, .read (effectiveAddress s)] ∧
          (s.ptr = s.pc → memRead s (effectiveAddress s) = opc .load))

/-- STORE: the byte at PTR becomes REG1, PC advances by 1, every other byte of memory and every register is unchanged;
for PTR in 240..255 the display slot PTR - 240 shows REG1 and one `DisplayUpdate` is emitted, also when the byte is the
same; below 240 the display is unchanged and nothing is emitted (43_memory_access.md R112). -/
def Obligations.StoreResult : Prop :=
  ∀ (opc : OpcodeMap) (s : State),
    encode opc .store = [opc .store] ∧ effectiveAddress s = s.ptr ∧
      ∃ t, exec .store s = .next t ∧
        t = { s with mem := t.mem, pc := s.pc + 1 } ∧
        (∀ a : Nat, t.mem.read a = if a = (effectiveAddress s).toNat then s.reg1 else s.mem.read a) ∧
        (240 ≤ s.ptr.toNat → displaySlot t (s.ptr.toNat - 240) = s.reg1) ∧
        (s.ptr.toNat < 240 → display t = display s) ∧
        (stepKind opc s = .executed .store →
          stepUpdates opc s = if 240 ≤ s.ptr.toNat then [⟨s.ptr.toNat - 240, s.reg1⟩] else [])

/-- SET_PTR: PTR becomes REG1, PC advances by 1, all else is unchanged; no other instruction writes PTR
(44_register_moves.md R115). -/
def Obligations.SetPtrResult : Prop :=
  ∀ (opc : OpcodeMap) (s : State),
    encode opc .setPtr = [opc .setPtr] ∧ exec .setPtr s = .next { s with ptr := s.reg1, pc := s.pc + 1 } ∧
      ∀ (i : Instr) (t : State), exec i s = .next t → t.ptr ≠ s.ptr → i = .setPtr

/-- SWAP: REG1 and REG2 exchange, PC advances by 1, all else is unchanged; two in a row restore both registers;
no other instruction writes REG2 (44_register_moves.md R116). -/
def Obligations.SwapResult : Prop :=
  ∀ (opc : OpcodeMap) (s : State),
    encode opc .swap = [opc .swap] ∧
      ∃ t, exec .swap s = .next t ∧ t = { s with reg1 := s.reg2, reg2 := s.reg1, pc := s.pc + 1 } ∧
        exec .swap t = .next { s with pc := s.pc + 2 } ∧
        ∀ (i : Instr) (u : State), exec i s = .next u → u.reg2 ≠ s.reg2 → i = .swap

/-- SET_REG1 k: REG1 becomes k, PC advances by 2, all else is unchanged, for all 256 values of k; k is the byte at
PC + 1 modulo 256; in assembly it takes exactly one operand, a literal 0 to 255 (44_register_moves.md R117). -/
def Obligations.SetReg1Result : Prop :=
  ∀ (opc : OpcodeMap) (k : Byte) (s : State),
    encode opc (.setReg1 k) = [opc .setReg1, k] ∧
      exec (.setReg1 k) s = .next { s with reg1 := k, pc := s.pc + 2 } ∧
      (stepKind opc s = .executed (.setReg1 k) →
        k = memRead s (s.pc + 1) ∧ stepAccesses opc s = [.read s.pc, .read (s.pc + 1)]) ∧
      (∀ t : Text, readLiteral t = some k.toNat → lineInstr (mnemonicName .setReg1) [t] = .ok (.setReg1 k)) ∧
      lineInstr (mnemonicName .setReg1) [] = .error .operandArityError ∧
      ∀ (t : Text) (n : Nat), readLiteral t = some n → 255 < n →
        lineInstr (mnemonicName .setReg1) [t] = .error .operandRangeError

/-- JNZ k: PC becomes k if REG1 is not 0, else PC + 2; nothing else changes; the operand is fetched from PC + 1 modulo
256 whether or not the jump is taken; in assembly it takes exactly one operand (45_branch.md R121). -/
def Obligations.JnzResult : Prop :=
  ∀ (opc : OpcodeMap) (k : Byte) (s : State),
    encode opc (.jnz k) = [opc .jnz, k] ∧
      exec (.jnz k) s = .next { s with pc := if s.reg1 = 0 then s.pc + 2 else k } ∧
      (stepKind opc s = .executed (.jnz k) →
        k = memRead s (s.pc + 1) ∧ stepAccesses opc s = [.read s.pc, .read (s.pc + 1)] ∧ stepUpdates opc s = []) ∧
      (∀ t : Text, readLiteral t = some k.toNat → lineInstr (mnemonicName .jnz) [t] = .ok (.jnz k)) ∧
      lineInstr (mnemonicName .jnz) [] = .error .operandArityError

/-- The PC update of every instruction, which always completes (40_execution_cycle.md R85). -/
def Obligations.PcUpdate : Prop :=
  ∀ (i : Instr) (s : State), ∃ t, exec i s = .next t ∧
    t.pc = match i with
      | .halt => s.pc
      | .jnz k => if s.reg1 = 0 then s.pc + 2 else k
      | .setReg1 _ => s.pc + 2
      | .xor | .add | .load | .store | .setPtr | .swap => s.pc + 1

/-! ## The step -/

/-- `Step()` in full, under any opcode assignment: a no-op while HALTED, `InvalidOpcode` on a byte that is no opcode,
else the instruction that the bytes at PC and PC + 1 decode to, with its PC update and its trace record
(40_execution_cycle.md R81). -/
def Obligations.StepFollowsTheCycle : Prop :=
  ∀ (opc : OpcodeMap) (s : State),
    (s.st = .halted → stepKind opc s = .haltedNoOp ∧ stepWith opc s = .next s ∧ stepAccesses opc s = []) ∧
    (s.st = .running → decodeOpcode opc (memRead s s.pc) = none →
      stepWith opc s = .fault (.invalidOpcode s.pc (memRead s s.pc))) ∧
    (s.st = .running → ∀ i rest, decode opc [memRead s s.pc, memRead s (s.pc + 1)] = .ok (i, rest) →
      stepKind opc s = .executed i ∧
        ∃ t, exec i s = .next t ∧ stepWith opc s = .next t ∧
          stepTrace opc s = some ⟨s.pc, memRead s s.pc, i.operand, t.reg1, t.reg2, t.ptr, t.pc⟩ ∧
          t.pc = match i with
            | .halt => s.pc
            | .jnz k => if s.reg1 = 0 then s.pc + 2 else k
            | i => s.pc + BitVec.ofNat 8 i.size)

/-- When the bytes at PC and PC + 1 decode to an instruction under the default opcode bytes, the model's `step` of a
RUNNING machine is `exec` of it; `step` is `stepWith` at the default (40_execution_cycle.md section 2; the default is
decision D1, log 1). -/
def Obligations.StepRunsDecodedInstruction : Prop :=
  ∀ s : State, step s = stepWith defaultOpc s ∧
    (s.st = .running → ∀ i rest, decode defaultOpc [memRead s s.pc, memRead s (s.pc + 1)] = .ok (i, rest) →
      step s = exec i s)

/-- An invalid opcode byte freezes the machine: the step fails, names PC and the byte, reads no operand byte, and the
host finds the machine as it was, still RUNNING, with no trace record and no display event
(40_execution_cycle.md R83). -/
def Obligations.InvalidOpcodeFreezesMachine : Prop :=
  ∀ (opc : OpcodeMap) (x : Session), x.machine.st = .running →
    decodeOpcode opc (memRead x.machine x.machine.pc) = none →
    stepWith opc x.machine = .fault (.invalidOpcode x.machine.pc (memRead x.machine x.machine.pc)) ∧
      stepAccesses opc x.machine = [.read x.machine.pc] ∧
      hostMove opc .step x =
        ⟨x, .stepped (.invalidOpcode x.machine.pc (memRead x.machine x.machine.pc)), [], []⟩

/-- Every step has exactly one of the three outcomes, by the conditions of the table of outcomes; an executed step
halts the machine exactly if it executes HALT (40_execution_cycle.md R87). -/
def Obligations.StepHasThreeOutcomes : Prop :=
  ∀ (opc : OpcodeMap) (s : State),
    match stepKind opc s with
    | .haltedNoOp => s.st = .halted ∧ stepWith opc s = .next s
    | .invalidOpcode a op =>
      s.st = .running ∧ a = s.pc ∧ op = memRead s s.pc ∧ decodeOpcode opc op = none ∧
        stepWith opc s = .fault (.invalidOpcode a op) ∧ stateAfter opc s = s
    | .executed i =>
      s.st = .running ∧ decodeOpcode opc (memRead s s.pc) = some i.mnemonic ∧
        ∃ t, exec i s = .next t ∧ stepWith opc s = .next t ∧ (t.st = .halted ↔ i = .halt)

/-- A step faults exactly when the machine is RUNNING and the byte at PC is the opcode byte of no instruction, and it
never refuses. That the outcome is a fault of the model is the spec's decision D7, log 3. -/
def Obligations.FaultExactlyOnUnknownOpcode : Prop :=
  ∀ (opc : OpcodeMap) (s : State),
    (∀ f, stepWith opc s = .fault f ↔
      s.st = .running ∧ (∀ m, opc m ≠ memRead s s.pc) ∧ f = .invalidOpcode s.pc (memRead s s.pc)) ∧
    ∀ r, stepWith opc s ≠ .refused r

/-- A HALTED machine stays as it is for any number of steps, reads nothing and emits nothing, also when PC points at an
invalid byte. That case is the spec's decision D5, log 4; that such a step has no trace record is its decision D10,
log 5. -/
def Obligations.HaltedMachineIsInert : Prop :=
  ∀ (opc : OpcodeMap) (n : Nat) (x : Session), x.machine.st = .halted →
    stepsWith opc n x.machine = .next x.machine ∧ stepAccesses opc x.machine = [] ∧
      hostMove opc .step x = ⟨x, .stepped .haltedNoOp, [], []⟩

/-- Along any run, REG2 changes only by a SWAP, PTR only by a SET_PTR, and `st` only by a HALT (a consequence the spec
draws from its table, 10_state.md section 2; 10_state.md section 5). -/
def Obligations.RegistersChangeOnlyByTheirInstruction : Prop :=
  ∀ (opc : OpcodeMap) (n : Nat) (s t : State), stepsWith opc n s = .next t →
    (t.reg2 ≠ s.reg2 → ∃ k u, k < n ∧ stepsWith opc k s = .next u ∧ stepKind opc u = .executed .swap) ∧
    (t.ptr ≠ s.ptr → ∃ k u, k < n ∧ stepsWith opc k s = .next u ∧ stepKind opc u = .executed .setPtr) ∧
    (t.st ≠ s.st → t.st = .halted ∧ ∃ k u, k < n ∧ stepsWith opc k s = .next u ∧ stepKind opc u = .executed .halt)

/-- Along any run, a byte of memory changes only by a STORE executed with PTR at that byte (10_state.md section 7;
43_memory_access.md, STORE). -/
def Obligations.MemoryChangesOnlyByStore : Prop :=
  ∀ (opc : OpcodeMap) (n : Nat) (s t : State) (a : Nat), stepsWith opc n s = .next t →
    t.mem.read a ≠ s.mem.read a →
    ∃ k u, k < n ∧ stepsWith opc k s = .next u ∧ stepKind opc u = .executed .store ∧
      (effectiveAddress u).toNat = a

/-- A step depends only on the registers, `st` and the cells its access list names as read: two states that agree there
have the same outcome, accesses, events and trace, end with equal registers, agree on every cell written, and keep
every other cell each (20_memory.md sections 2 and 3). -/
def Obligations.StepDependsOnlyOnWhatItReads : Prop :=
  ∀ (opc : OpcodeMap) (s s' : State),
    s.reg1 = s'.reg1 → s.reg2 = s'.reg2 → s.ptr = s'.ptr → s.pc = s'.pc → s.st = s'.st →
    (∀ a, Access.read a ∈ stepAccesses opc s → memRead s a = memRead s' a) →
    stepKind opc s' = stepKind opc s ∧ stepAccesses opc s' = stepAccesses opc s ∧
      stepUpdates opc s' = stepUpdates opc s ∧ stepTrace opc s' = stepTrace opc s ∧
      (∀ f, stepWith opc s = .fault f ↔ stepWith opc s' = .fault f) ∧
      ∀ t, stepWith opc s = .next t → ∃ t', stepWith opc s' = .next t' ∧
        t'.reg1 = t.reg1 ∧ t'.reg2 = t.reg2 ∧ t'.ptr = t.ptr ∧ t'.pc = t.pc ∧ t'.st = t.st ∧
        (∀ a v, Access.write a v ∈ stepAccesses opc s → memRead t a = v ∧ memRead t' a = v) ∧
        ∀ a, (∀ v, Access.write a v ∉ stepAccesses opc s) →
          memRead t a = memRead s a ∧ memRead t' a = memRead s' a

/-- A STORE to the next address changes what the next step fetches: it decodes the byte just stored (an inference of
the spec, 20_memory.md section 3). -/
def Obligations.StoreIsSeenByNextFetch : Prop :=
  ∀ (opc : OpcodeMap) (s t : State), stepKind opc s = .executed .store → s.ptr = s.pc + 1 →
    stepWith opc s = .next t →
    t.pc = s.ptr ∧ memRead t t.pc = s.reg1 ∧
      (decodeOpcode opc s.reg1 = none → stepWith opc t = .fault (.invalidOpcode t.pc s.reg1)) ∧
      ∀ i rest, decode opc [s.reg1, memRead s (s.pc + 2)] = .ok (i, rest) → stepWith opc t = exec i t

/-- A run of n steps is safe exactly when no RUNNING state it reaches before its n-th step has a byte at PC that is no
opcode; no other thing can stop a run (60_exceptions.md section 1). -/
def Obligations.RunIsSafeUnlessUnknownOpcode : Prop :=
  ∀ (opc : OpcodeMap) (n : Nat) (s : State),
    safeFor opc n s ↔
      ∀ k u, k < n → stepsWith opc k s = .next u → u.st = .running → ∃ m, opc m = memRead u u.pc

/-! ## Memory and display -/

/-- The memory of the machine after power-on is in canonical form, and the session satisfies its invariant
(the model's own form, log 6). -/
def Obligations.PowerOnIsWellFormed : Prop :=
  State.reset.mem.wf = true ∧ Session.powerOn.wf = true

/-- Every step keeps the canonical form of memory, under every opcode assignment (the model's own form, log 6). -/
def Obligations.StepKeepsMemoryCanonical : Prop :=
  (∀ s t : State, s.mem.wf = true → step s = .next t → t.mem.wf = true) ∧
    ∀ (opc : OpcodeMap) (s t : State), s.mem.wf = true → stepWith opc s = .next t → t.mem.wf = true

/-- Two memories in canonical form that hold the same 256 bytes are the same memory (the model's own form, log 6). -/
def Obligations.CanonicalMemoryIsUnique : Prop :=
  ∀ m m' : Memory, m.wf = true → m'.wf = true → (∀ a, a < 256 → m.read a = m'.read a) → m = m'

/-- Writing to a cell the byte it holds leaves the state as it was (43_memory_access.md, STORE, corner case (c); the
canonical form is log 6). -/
def Obligations.WriteBackChangesNothing : Prop :=
  ∀ (s : State) (a : Byte), s.mem.wf = true → memWrite s a (memRead s a) = s

/-- A read returns the byte most recently written to that address, or what it held before if none was
(20_memory.md section 3). -/
def Obligations.ReadReturnsLastWrite : Prop :=
  ∀ (s : State) (writes : List (Byte × Byte)) (a : Byte),
    memRead (mergeBytes s writes) a =
      match writes.reverse.find? (fun p => p.1 == a) with
      | some p => p.2
      | none => memRead s a

/-- The display is 16 slots and slot i is the memory byte at 240 + i, in every state (10_state.md R21). -/
def Obligations.DisplayIsProjection : Prop :=
  ∀ s : State, (display s).length = 16 ∧
    ∀ i, i < 16 → (display s)[i]? = some (memRead s (BitVec.ofNat 8 (240 + i))) ∧
      displaySlot s i = memRead s (BitVec.ofNat 8 (240 + i))

/-- Replaying the `DisplayUpdate` events of any host move, a step or a run among them, on the display before it gives
the display after it. Events for host writes and one event for each write are the spec's decisions D3 and D20,
logs 5 and 9. -/
def Obligations.DisplayEventsReplayDisplay : Prop :=
  ∀ (opc : OpcodeMap) (op : HostOp) (x : Session),
    let m := hostMove opc op x
    m.updates.foldl showUpdate (display x.machine) = display m.session.machine

/-! ## Encoding -/

/-- Decoding the encoding of an instruction, whatever bytes follow, gives the instruction back with every operand value
and leaves exactly the bytes that follow, for every assignment of nine distinct opcode bytes
(30_encoding.md sections 1 to 3; that OPC is injective is decision D1, log 1). -/
def Obligations.DecodeEncodeRoundTrip : Prop :=
  ∀ opc : OpcodeMap, opc.distinct = true → ∀ (i : Instr) (rest : List Byte),
    decode opc (encode opc i ++ rest) = .ok (i, rest)

/-- What the decoder reads is what the encoder writes: bytes that decode to an instruction are its encoding followed by
the bytes left over, under every opcode assignment (30_encoding.md sections 1 to 3). -/
def Obligations.DecodedBytesAreTheEncoding : Prop :=
  ∀ (opc : OpcodeMap) (bytes : List Byte) (i : Instr) (rest : List Byte),
    decode opc bytes = .ok (i, rest) → bytes = encode opc i ++ rest ∧ (encode opc i).length = i.size

/-- `Decode(b)` is the mnemonic whose opcode byte is b if one exists, else Invalid (30_encoding.md R56). -/
def Obligations.OpcodeLookup : Prop :=
  ∀ opc : OpcodeMap, opc.distinct = true → ∀ b : Byte,
    (∀ m, decodeOpcode opc b = some m ↔ opc m = b) ∧ (decodeOpcode opc b = none ↔ ∀ m, opc m ≠ b)

/-- The length of an instruction is told by the opcode byte alone: two byte strings with the same first byte that both
decode give instructions of the same size, which is the number of bytes consumed (30_encoding.md R52). -/
def Obligations.LengthFromOpcodeByte : Prop :=
  ∀ (opc : OpcodeMap) (b : Byte) (r r' rest rest' : List Byte) (i i' : Instr),
    decode opc (b :: r) = .ok (i, rest) → decode opc (b :: r') = .ok (i', rest') →
    i.size = i'.size ∧ r.length + 1 = i.size + rest.length

/-- Exactly 247 of the 256 byte values are invalid opcodes, for every assignment of nine distinct bytes; under the
default they are 0x09 to 0xFF (30_encoding.md section 4; the default is decision D1, log 1). -/
def Obligations.InvalidOpcodeCount : Prop :=
  (∀ opc : OpcodeMap, opc.distinct = true →
    ((List.range 256).filter (fun n => (decodeOpcode opc (BitVec.ofNat 8 n)).isNone)).length = 247) ∧
    ∀ b : Byte, decodeOpcode defaultOpc b = none ↔ 9 ≤ b.toNat

/-- Words written out from the opcode table decode to the instruction of their row (opcode_table.json; the bytes are
decision D1, log 1). -/
def Obligations.DefaultWordsDecode : Prop :=
  decodeTableWord 8 0b00000000 = some .halt ∧ decodeTableWord 8 0b00000001 = some .xor ∧
    decodeTableWord 8 0b00000010 = some .add ∧ decodeTableWord 8 0b00000011 = some .load ∧
    decodeTableWord 8 0b00000100 = some .store ∧ decodeTableWord 8 0b00000101 = some .setPtr ∧
    decodeTableWord 8 0b00000110 = some .swap ∧
    (∀ k : Byte, decodeTableWord 16 (k.toNat * 256 + 0b00000111) = some (.setReg1 k)) ∧
    ∀ k : Byte, decodeTableWord 16 (k.toNat * 256 + 0b00001000) = some (.jnz k)

/-! ## The assembly notation -/

/-- Assembling the text of a list of instructions that fits 256 bytes emits their encodings one after the other from
address 0 (30_encoding.md section 5; the emission address 0 is decision D14, log 12; that the text has its operands in
decimal is log 24). -/
def Obligations.AssembledTextIsTheEncoding : Prop :=
  ∀ (opc : OpcodeMap) (p : List Instr), (p.map Instr.size).sum ≤ 256 →
    assemble opc (p.map instrText) = .ok (placeBytes 0 (p.flatMap (encode opc)))

/-- After the host assembles the text of a list of instructions into memory, the machine set RUNNING at the address of
any of them fetches exactly that instruction (30_encoding.md section 5; 60_exceptions.md section 8; that OPC is injective is decision D1, log 1; the
emission address 0 is decision D14, log 12; the text's decimal operands are log 24). -/
def Obligations.AssembledInstructionsAreFetched : Prop :=
  ∀ (opc : OpcodeMap) (before after : List Instr) (i : Instr) (x : Session), opc.distinct = true →
    ((before ++ i :: after).map Instr.size).sum ≤ 256 →
    let m := hostMove opc (.program ((before ++ i :: after).map instrText)) x
    m.reply = .done ∧
      stepKind opc { m.session.machine with pc := BitVec.ofNat 8 (before.map Instr.size).sum, st := .running } =
        .executed i

/-- The three checks of a mnemonic line, and that one rejected line anywhere makes the whole assembly fail, so that
nothing is merged (30_encoding.md R63). -/
def Obligations.AssemblerRejectsWholeText : Prop :=
  (∀ (name : Text) (ops : List Text), mnemonicOf name = none → (∀ t ∈ ops, ∃ n, readLiteral t = some n ∧ n ≤ 255) →
      lineInstr name ops = .error .unknownMnemonic) ∧
    (∀ (m : Mnemonic) (ops : List Text), ops.length ≠ (if m.hasOperand then 1 else 0) →
      (∀ t ∈ ops, ∃ n, readLiteral t = some n ∧ n ≤ 255) →
      lineInstr (mnemonicName m) ops = .error .operandArityError) ∧
    (∀ (m : Mnemonic) (t : Text) (n : Nat), m.hasOperand = true → readLiteral t = some n → 255 < n →
      lineInstr (mnemonicName m) [t] = .error .operandRangeError) ∧
    ∀ (opc : OpcodeMap) (x : Session) (before after : List Text) (line name : Text) (ops : List Text) (e : HostError),
      readLine line = .ok (.code name ops) → lineInstr name ops = .error e →
      ∃ e', assemble opc (before ++ line :: after) = .error e' ∧
        hostMove opc (.program (before ++ line :: after)) x = ⟨x, .rejected e', [], []⟩

/-- `address_XXh:` with two hexadecimal digits is the label XX, and a label sets the emission address, emits nothing,
and a label that follows it sets it again (30_encoding.md section 5; both cases of a digit are log 12). -/
def Obligations.LabelSetsEmissionAddress : Prop :=
  (∀ (c d : Char) (n k : Nat), digitValue 16 c = some n → digitValue 16 d = some k →
    readLine (['a', 'd', 'd', 'r', 'e', 's', 's', '_', c, d, 'h', ':']) = .ok (.label (16 * n + k)) ∧
      16 * n + k ≤ 255) ∧
    ∀ (opc : OpcodeMap) (at_ a b : Nat) (line line' : Text) (rest : List Text), readLine line = .ok (.label a) →
      a ≤ 255 → assembleFrom opc at_ (line :: rest) = assembleFrom opc a rest ∧
        (readLine line' = .ok (.label b) → b ≤ 255 →
          assembleFrom opc at_ (line :: line' :: rest) = assembleFrom opc b rest)

/-! ## The host's moves -/

/-- A rejected move leaves the session exactly as it was and emits nothing; the rows of the error table: a host address
outside 0..255, a label or an emission past 255, an edit target that is none, a value over 8 bits, the assembler's
errors, a load of more than 256 bytes, a clock rate of 0 or less; each row where no other row applies
(60_exceptions.md section 5). The names InvalidAddress for an edit, save or inspected address outside 0..255 and
AddressOverflow for a label past 255 are the model's reading where the spec allows two, log 11. -/
def Obligations.RejectedMovesChangeNothing : Prop :=
  ∀ (opc : OpcodeMap) (x : Session),
    (∀ op e, (hostMove opc op x).reply = .rejected e → hostMove opc op x = ⟨x, .rejected e, [], []⟩) ∧
    (∀ (a v : Int), ¬(0 ≤ a ∧ a ≤ 255) → 0 ≤ v → v ≤ 255 →
      (hostMove opc (.addbp a) x).reply = .rejected .invalidAddress ∧
      (hostMove opc (.delbp a) x).reply = .rejected .invalidAddress ∧
      (hostMove opc (.save a) x).reply = .rejected .invalidAddress ∧
      (hostMove opc (.readMemory a) x).reply = .rejected .invalidAddress ∧
      (hostMove opc (.edit (.memory a) v) x).reply = .rejected .invalidAddress) ∧
    (∀ (name : Text) (v : Int), registerOf name = none → 0 ≤ v → v ≤ 255 →
      (hostMove opc (.edit (.register name) v) x).reply = .rejected .invalidTarget) ∧
    (∀ (name : Text) (a v : Int), ¬(0 ≤ v ∧ v ≤ 255) → registerOf name ≠ none → 0 ≤ a → a ≤ 255 →
      (hostMove opc (.edit (.register name) v) x).reply = .rejected .operandRangeError ∧
      (hostMove opc (.edit (.memory a) v) x).reply = .rejected .operandRangeError) ∧
    (∀ lines e, assemble opc lines = .error e → (hostMove opc (.program lines) x).reply = .rejected e) ∧
    (∀ (name : Text) (ops : List Text), mnemonicOf name = none → (∀ t ∈ ops, ∃ n, readLiteral t = some n ∧ n ≤ 255) →
      lineInstr name ops = .error .unknownMnemonic) ∧
    (∀ (m : Mnemonic) (ops : List Text), ops.length ≠ (if m.hasOperand then 1 else 0) →
      (∀ t ∈ ops, ∃ n, readLiteral t = some n ∧ n ≤ 255) →
      lineInstr (mnemonicName m) ops = .error .operandArityError) ∧
    (∀ (m : Mnemonic) (t : Text) (n : Nat), m.hasOperand = true → readLiteral t = some n → 255 < n →
      lineInstr (mnemonicName m) [t] = .error .operandRangeError) ∧
    (∀ (at_ a : Nat) (line : Text), readLine line = .ok (.label a) → 255 < a →
      assembleFrom opc at_ [line] = .error .addressOverflow) ∧
    (∀ (at_ : Nat) (line name : Text) (ops : List Text) (i : Instr), readLine line = .ok (.code name ops) →
      lineInstr name ops = .ok i → 256 < at_ + i.size →
      assembleFrom opc at_ [line] = .error .addressOverflow) ∧
    (∀ bytes : List Byte, 256 < bytes.length →
      (hostMove opc (.load bytes) x).reply = .rejected .programTooLarge) ∧
    ∀ rate : Int, rate ≤ 0 → (hostMove opc (.clock rate) x).reply = .rejected .invalidRate

/-- An edit overwrites one register, or one cell with its display event, and nothing else, in RUNNING and HALTED alike;
it never changes `st`. That it is allowed in both states is decision D18, log 20; that a memory edit emits the display
events of its write is decision D3, log 9. -/
def Obligations.EditOverwritesOneTarget : Prop :=
  ∀ (opc : OpcodeMap) (x : Session) (v : Byte),
    (∀ (name : Text) (r : RegName), registerOf name = some r →
      hostMove opc (.edit (.register name) v.toNat) x =
        ⟨{ x with machine := writeReg x.machine r v }, .done, [], []⟩ ∧
      (∀ q, readReg (writeReg x.machine r v) q = if q = r then v else readReg x.machine q) ∧
      (writeReg x.machine r v).mem = x.machine.mem ∧ (writeReg x.machine r v).st = x.machine.st) ∧
    ∀ a : Byte,
      let m := hostMove opc (.edit (.memory a.toNat) v.toNat) x
      m = ⟨{ x with machine := { x.machine with mem := m.session.machine.mem } }, .done, [], displayUpdates a v⟩ ∧
        ∀ b : Nat, m.session.machine.mem.read b = if b = a.toNat then v else x.machine.mem.read b

/-- Program or assemble merges exactly the map the assembler gives: every addressed cell holds its byte, every other
cell, the registers, PC and `st` are untouched, and mapped cells show on the display; if the assembler fails nothing is
merged (60_exceptions.md section 8). That the merge emits display events is decision D3, log 9; their order, the order
of emission, is the model's choice, log 13. -/
def Obligations.ProgramMergesOnlyTheMap : Prop :=
  ∀ (opc : OpcodeMap) (lines : List Text) (x : Session),
    let m := hostMove opc (.program lines) x
    match assemble opc lines with
    | .error e => m = ⟨x, .rejected e, [], []⟩
    | .ok bytes =>
      m = ⟨{ x with machine := { x.machine with mem := m.session.machine.mem } }, .done, [], mergeUpdates bytes⟩ ∧
        (∀ p ∈ bytes, memRead m.session.machine p.1 = p.2) ∧
        (∀ p ∈ bytes, 240 ≤ p.1.toNat → displaySlot m.session.machine (p.1.toNat - 240) = p.2) ∧
        ∀ a : Byte, (∀ p ∈ bytes, p.1 ≠ a) → memRead m.session.machine a = memRead x.machine a

/-- A binary load of n bytes, n at most 256, puts byte i at address i and leaves the other cells, the registers, PC
and `st` alone. What it leaves alone is the spec's decision D8, log 19. -/
def Obligations.LoadPlacesBytesFromZero : Prop :=
  ∀ (opc : OpcodeMap) (bytes : List Byte) (x : Session), bytes.length ≤ 256 →
    let m := hostMove opc (.load bytes) x
    m.reply = .done ∧
      m.session = { x with machine := { x.machine with mem := m.session.machine.mem } } ∧
      (∀ i b, bytes[i]? = some b → m.session.machine.mem.read i = b) ∧
      ∀ i, bytes.length ≤ i → m.session.machine.mem.read i = x.machine.mem.read i

/-- Save gives the bytes from address 0 to the given address inclusive and changes nothing, and saving the length just
loaded gives the loaded bytes back (60_exceptions.md section 8; the load is decision D8, log 19). -/
def Obligations.SaveReturnsMemoryAndLoadedImage : Prop :=
  ∀ (opc : OpcodeMap) (x : Session),
    (∀ hi : Byte, ∃ bs, hostMove opc (.save hi.toNat) x = ⟨x, .bytes bs, [], []⟩ ∧ bs.length = hi.toNat + 1 ∧
      ∀ i, i ≤ hi.toNat → bs[i]? = some (x.machine.mem.read i)) ∧
    ∀ bytes : List Byte, bytes ≠ [] → bytes.length ≤ 256 →
      (hostMove opc (.save (bytes.length - 1 : Nat)) (hostMove opc (.load bytes) x).session).reply = .bytes bytes

/-- A loaded image is saved back unchanged after any run from reset that stores only above it (the round trip of
60_exceptions.md section 8, S7 of 95_test_vectors.md, with the condition stated there; the load is D8, log 19). -/
def Obligations.LoadedImageSurvivesRun : Prop :=
  ∀ (opc : OpcodeMap) (bytes : List Byte) (x : Session) (n : Nat) (t : State),
    bytes ≠ [] → bytes.length ≤ 256 →
    let s := (hostMove opc .reset (hostMove opc (.load bytes) x).session).session.machine
    stepsWith opc n s = .next t →
    (∀ k u, k < n → stepsWith opc k s = .next u → stepKind opc u = .executed .store →
      bytes.length ≤ (effectiveAddress u).toNat) →
    savedBytes t (BitVec.ofNat 8 (bytes.length - 1)) = bytes

/-- A run is steps: its result is reached by some number n of steps, none of which was taken from a HALTED state, a
breakpoint or under a stop request, and the reason it reports holds of the state it stops in. The order of the tests is
decisions D9 and D11, log 16; the samples are log 15. -/
def Obligations.RunIsIteratedStep : Prop :=
  ∀ (opc : OpcodeMap) (bp : List Byte) (stops : List Bool) (s : State),
    let r := runLoop opc bp stops s
    ∃ n, n ≤ stops.length ∧ stepsWith opc n s = .next r.machine ∧ r.traces.length = n ∧
      (∀ k, k < n → ∃ u i, stepsWith opc k s = .next u ∧ stepKind opc u = .executed i ∧ u.pc ∉ bp ∧
        stops[k]? = some false) ∧
      match r.why with
      | .stoppedHalted => r.machine.st = .halted
      | .stoppedByUser => r.machine.st = .running ∧ stops[n]? = some true
      | .stoppedAtBreakpoint => r.machine.st = .running ∧ r.machine.pc ∈ bp ∧ stops[n]? = some false
      | .failed a op => r.machine.pc ∉ bp ∧ stepWith opc r.machine = .fault (.invalidOpcode a op)
      | .stillRunning => r.machine.st = .running ∧ n = stops.length

/-- If n steps from a state end HALTED, a run of n iterations without breakpoints and stop requests comes back with
that state and says HALTED; so a program halts exactly if such a run says so for some n (60_exceptions.md section 8;
log 15). -/
def Obligations.RunReachesHalt : Prop :=
  ∀ (opc : OpcodeMap) (s : State),
    (∀ n t, stepsWith opc n s = .next t → t.st = .halted →
      (runLoop opc [] (List.replicate n false) s).why = .stoppedHalted ∧
        (runLoop opc [] (List.replicate n false) s).machine = t) ∧
    (reachesHalt opc s ↔ ∃ n, (runLoop opc [] (List.replicate n false) s).why = .stoppedHalted)

/-- Only reset leaves HALTED: after any other move of the host a HALTED machine is HALTED (10_state.md section 5;
70_reset_and_hazards.md section 1; that edit cannot write `st` is decision D18, log 20). -/
def Obligations.OnlyResetLeavesHalted : Prop :=
  ∀ (opc : OpcodeMap) (op : HostOp) (x : Session), x.machine.st = .halted →
    ((hostMove opc op x).session.machine.st = .running ↔ op = .reset)

/-- The breakpoint commands are set insertion and set removal, and a breakpoint at PC stops a run before anything is
executed (60_exceptions.md section 8; the last is decision D11, log 16; that both commands reply done also when the set
stays as it is, is log 21). -/
def Obligations.BreakpointSetOperations : Prop :=
  ∀ (opc : OpcodeMap) (x : Session) (a : Byte),
    ((hostMove opc (.addbp a.toNat) x).reply = .done ∧ (hostMove opc (.delbp a.toNat) x).reply = .done) ∧
    (∀ b, b ∈ (hostMove opc (.addbp a.toNat) x).session.breakpoints ↔ b = a ∨ b ∈ x.breakpoints) ∧
    (∀ b, b ∈ (hostMove opc (.delbp a.toNat) x).session.breakpoints ↔ b ≠ a ∧ b ∈ x.breakpoints) ∧
    ∀ stops : List Bool, x.machine.st = .running → x.machine.pc = a →
      hostMove opc (.run (false :: stops)) (hostMove opc (.addbp a.toNat) x).session =
        ⟨(hostMove opc (.addbp a.toNat) x).session, .ran .stoppedAtBreakpoint, [], []⟩

/-- The host reads any register, `st`, any cell and the display, gets the current value and changes nothing
(60_exceptions.md R157). -/
def Obligations.InspectionChangesNothing : Prop :=
  ∀ (opc : OpcodeMap) (x : Session),
    (∀ r, hostMove opc (.readRegister r) x = ⟨x, .byte (readReg x.machine r), [], []⟩) ∧
      readReg x.machine .reg1 = x.machine.reg1 ∧ readReg x.machine .reg2 = x.machine.reg2 ∧
      readReg x.machine .ptr = x.machine.ptr ∧ readReg x.machine .pc = x.machine.pc ∧
      hostMove opc .readExecState x = ⟨x, .execState x.machine.st, [], []⟩ ∧
      (∀ a : Byte, hostMove opc (.readMemory a.toNat) x = ⟨x, .byte (memRead x.machine a), [], []⟩) ∧
      hostMove opc .readDisplay x = ⟨x, .bytes (display x.machine), [], []⟩

/-- Every move of the host, a step and a run among them, keeps the session's invariant: memory in canonical form, the
breakpoint set strictly rising, a clock rate above 0 (the model's own forms, logs 6 and 17). -/
def Obligations.HostMovesKeepSessionInvariant : Prop :=
  ∀ (opc : OpcodeMap) (op : HostOp) (x : Session), x.wf = true → (hostMove opc op x).session.wf = true

/-- An operand literal is `0x` with one or two hexadecimal digits, neither none nor more, or a decimal literal; every
byte in decimal reads as itself. The form is decision D12; that a sign, or a third hexadecimal digit, makes the operand
no literal and its line `malformedLine` is the model's choice, log 12. -/
def Obligations.OperandLiteralForms : Prop :=
  (∀ (c d e : Char) (rest : Text) (n k : Nat), digitValue 16 c = some n → digitValue 16 d = some k →
    readLiteral ['0', 'x', c] = some n ∧ readLiteral ['0', 'x', c, d] = some (16 * n + k) ∧ 16 * n + k ≤ 255 ∧
      readLiteral ('0' :: 'x' :: c :: d :: e :: rest) = none) ∧
    readLiteral ['0', 'x'] = none ∧
    (∀ k : Byte, readLiteral (decimalText k) = some k.toNat) ∧
    (∀ t : Text, readLiteral ('-' :: t) = none) ∧
    ∀ (m : Mnemonic) (t : Text), m.hasOperand = true → readLiteral t = none →
      lineInstr (mnemonicName m) [t] = .error .malformedLine
end

