-- ==== Sys2Proof/Laws/Assembler.lean ====
section
/-! SUPPORT. What the readers of assembly text can answer (30_encoding.md R61, R62). -/

namespace Sys2Proof.Machine

/-- A mnemonic's own spelling is read as that mnemonic. -/
theorem mnemonicOf_mnemonicName (m : Mnemonic) : mnemonicOf (mnemonicName m) = some m := by
  cases m <;> decide

/-- A hexadecimal digit is worth at most 15. -/
theorem digitValue_le {c : Char} {n : Nat} (h : digitValue 16 c = some n) : n ≤ 15 := by
  simp only [digitValue] at h
  split at h
  · injection h; omega
  · split at h
    · injection h; omega
    · split at h
      · injection h; omega
      · cases h

/-- Everything `readHexOperand` can answer: one or two digits and their value (decision D12). -/
theorem readHexOperand_some {t : Text} {n : Nat} (h : readHexOperand t = some n) :
    (∃ c, t = [c] ∧ digitValue 16 c = some n) ∨
      ∃ c d x y, t = [c, d] ∧ digitValue 16 c = some x ∧ digitValue 16 d = some y ∧ n = 16 * x + y := by
  match t with
  | [] => simp [readHexOperand] at h
  | [c] =>
    cases hc : digitValue 16 c with
    | none => simp [readHexOperand, readNumeral, readDigits, hc] at h
    | some x =>
      simp [readHexOperand, readNumeral, readDigits, hc] at h
      exact Or.inl ⟨c, rfl, by rw [h] at hc; exact hc⟩
  | [c, d] =>
    cases hc : digitValue 16 c with
    | none => simp [readHexOperand, readNumeral, readDigits, hc] at h
    | some x =>
      cases hd : digitValue 16 d with
      | none => simp [readHexOperand, readNumeral, readDigits, hc, hd] at h
      | some y =>
        simp [readHexOperand, readNumeral, readDigits, hc, hd] at h
        exact Or.inr ⟨c, d, x, y, rfl, hc, hd, h.symm⟩
  | _ :: _ :: _ :: _ => simp [readHexOperand] at h

/-- A hexadecimal operand fits 8 bits by its form. -/
theorem readHexOperand_le {t : Text} {n : Nat} (h : readHexOperand t = some n) : n ≤ 255 := by
  rcases readHexOperand_some h with ⟨c, _, hc⟩ | ⟨c, d, x, y, _, hc, hd, rfl⟩
  · have := digitValue_le hc; omega
  · have := digitValue_le hc; have := digitValue_le hd; omega

/-- A text without a space is one word. -/
theorem splitWords_word : ∀ {t : Text}, ' ' ∉ t → splitWords t = [t]
  | [], _ => rfl
  | c :: rest, h => by
    have hc : c ≠ ' ' := fun e => h (by simp [e])
    simp [splitWords, hc, splitWords_word (t := rest) (fun e => h (by simp [e]))]

/-- A space ends the first word. -/
theorem splitWords_cons : ∀ {t : Text} (u : Text), ' ' ∉ t → splitWords (t ++ ' ' :: u) = t :: splitWords u
  | [], _, _ => by simp [splitWords]
  | c :: rest, u, h => by
    have hc : c ≠ ' ' := fun e => h (by simp [e])
    simp [splitWords, hc, splitWords_cons (t := rest) u (fun e => h (by simp [e]))]

end Sys2Proof.Machine
end

