-- ==== Sys2Proof/Laws/Decode.lean ====
section
/-! SUPPORT. What the opcode lookup, the decoder and the encoder can do. -/

namespace Sys2Proof

theorem Mnemonic.mem_all (m : Mnemonic) : m ∈ Mnemonic.all := by
  cases m <;> decide

/-- The check of an opcode assignment is injectivity (30_encoding.md R54). -/
theorem OpcodeMap.distinct_iff (opc : OpcodeMap) : opc.distinct = true ↔ Function.Injective opc := by
  unfold OpcodeMap.distinct
  rw [decide_eq_true_iff]
  constructor
  · intro h m n hmn
    exact List.inj_on_of_nodup_map h m.mem_all n.mem_all hmn
  · intro h
    exact List.Nodup.map h (by decide)

theorem defaultOpc_distinct : defaultOpc.distinct = true := by decide

/-- A mnemonic the lookup gives has the byte looked up, under any assignment. -/
theorem decodeOpcode_some {opc : OpcodeMap} {b : Byte} {m : Mnemonic} (h : decodeOpcode opc b = some m) :
    opc m = b := by
  simpa using List.find?_some h

@[simp] theorem instrOf_mnemonic (m : Mnemonic) (k : Byte) : (instrOf m k).mnemonic = m := by
  cases m <;> rfl

/-- The operand of the instruction with a given mnemonic and operand byte. -/
theorem instrOf_operand (m : Mnemonic) (k : Byte) :
    (instrOf m k).operand = if m.hasOperand then some k else none := by
  cases m <;> rfl

/-- Everything `decode` can answer when it answers an instruction. -/
theorem decode_ok {opc : OpcodeMap} {bs rest : List Byte} {i : Instr} (h : decode opc bs = .ok (i, rest)) :
    ∃ b tail m, bs = b :: tail ∧ decodeOpcode opc b = some m ∧
      ((m.hasOperand = false ∧ i = instrOf m 0 ∧ rest = tail) ∨
        (m.hasOperand = true ∧ ∃ k, tail = k :: rest ∧ i = instrOf m k)) := by
  match bs with
  | [] => simp [decode] at h
  | b :: tail =>
    cases hd : decodeOpcode opc b with
    | none => simp [decode, hd] at h
    | some m =>
      refine ⟨b, tail, m, rfl, hd, ?_⟩
      cases hm : m.hasOperand with
      | false =>
        simp [decode, hd, hm] at h
        exact Or.inl ⟨rfl, h.1.symm, h.2.symm⟩
      | true =>
        match tail with
        | [] => simp [decode, hd, hm] at h
        | k :: more =>
          simp [decode, hd, hm] at h
          exact Or.inr ⟨rfl, k, by rw [h.2], h.1.symm⟩

end Sys2Proof
end

