-- ==== Sys2Proof/Laws/State.lean ====
section
/-! SUPPORT. One lemma for each field and each update of the state, so that no proof unfolds a record update. -/

namespace Sys2Proof.Machine

section
variable (s : State) (v : Byte)

@[simp] theorem readReg_reg1 : readReg s .reg1 = s.reg1 := rfl
@[simp] theorem readReg_reg2 : readReg s .reg2 = s.reg2 := rfl
@[simp] theorem readReg_ptr : readReg s .ptr = s.ptr := rfl
@[simp] theorem readReg_pc : readReg s .pc = s.pc := rfl

@[simp] theorem writeReg_reg1_reg1 : (writeReg s .reg1 v).reg1 = v := rfl
@[simp] theorem writeReg_reg1_reg2 : (writeReg s .reg1 v).reg2 = s.reg2 := rfl
@[simp] theorem writeReg_reg1_ptr : (writeReg s .reg1 v).ptr = s.ptr := rfl
@[simp] theorem writeReg_reg1_pc : (writeReg s .reg1 v).pc = s.pc := rfl
@[simp] theorem writeReg_reg1_st : (writeReg s .reg1 v).st = s.st := rfl
@[simp] theorem writeReg_reg1_mem : (writeReg s .reg1 v).mem = s.mem := rfl

@[simp] theorem writeReg_reg2_reg1 : (writeReg s .reg2 v).reg1 = s.reg1 := rfl
@[simp] theorem writeReg_reg2_reg2 : (writeReg s .reg2 v).reg2 = v := rfl
@[simp] theorem writeReg_reg2_ptr : (writeReg s .reg2 v).ptr = s.ptr := rfl
@[simp] theorem writeReg_reg2_pc : (writeReg s .reg2 v).pc = s.pc := rfl
@[simp] theorem writeReg_reg2_st : (writeReg s .reg2 v).st = s.st := rfl
@[simp] theorem writeReg_reg2_mem : (writeReg s .reg2 v).mem = s.mem := rfl

@[simp] theorem writeReg_ptr_reg1 : (writeReg s .ptr v).reg1 = s.reg1 := rfl
@[simp] theorem writeReg_ptr_reg2 : (writeReg s .ptr v).reg2 = s.reg2 := rfl
@[simp] theorem writeReg_ptr_ptr : (writeReg s .ptr v).ptr = v := rfl
@[simp] theorem writeReg_ptr_pc : (writeReg s .ptr v).pc = s.pc := rfl
@[simp] theorem writeReg_ptr_st : (writeReg s .ptr v).st = s.st := rfl
@[simp] theorem writeReg_ptr_mem : (writeReg s .ptr v).mem = s.mem := rfl

@[simp] theorem writeReg_pc_reg1 : (writeReg s .pc v).reg1 = s.reg1 := rfl
@[simp] theorem writeReg_pc_reg2 : (writeReg s .pc v).reg2 = s.reg2 := rfl
@[simp] theorem writeReg_pc_ptr : (writeReg s .pc v).ptr = s.ptr := rfl
@[simp] theorem writeReg_pc_pc : (writeReg s .pc v).pc = v := rfl
@[simp] theorem writeReg_pc_st : (writeReg s .pc v).st = s.st := rfl
@[simp] theorem writeReg_pc_mem : (writeReg s .pc v).mem = s.mem := rfl

@[simp] theorem memWrite_reg1 (a : Byte) : (memWrite s a v).reg1 = s.reg1 := rfl
@[simp] theorem memWrite_reg2 (a : Byte) : (memWrite s a v).reg2 = s.reg2 := rfl
@[simp] theorem memWrite_ptr (a : Byte) : (memWrite s a v).ptr = s.ptr := rfl
@[simp] theorem memWrite_pc (a : Byte) : (memWrite s a v).pc = s.pc := rfl
@[simp] theorem memWrite_st (a : Byte) : (memWrite s a v).st = s.st := rfl
@[simp] theorem memWrite_mem (a : Byte) : (memWrite s a v).mem = s.mem.write a.toNat v := rfl

@[simp] theorem setExecState_reg1 (x : ExecState) : (setExecState s x).reg1 = s.reg1 := rfl
@[simp] theorem setExecState_reg2 (x : ExecState) : (setExecState s x).reg2 = s.reg2 := rfl
@[simp] theorem setExecState_ptr (x : ExecState) : (setExecState s x).ptr = s.ptr := rfl
@[simp] theorem setExecState_pc (x : ExecState) : (setExecState s x).pc = s.pc := rfl
@[simp] theorem setExecState_st (x : ExecState) : (setExecState s x).st = x := rfl
@[simp] theorem setExecState_mem (x : ExecState) : (setExecState s x).mem = s.mem := rfl

@[simp] theorem advancePc_reg1 (n : Nat) : (advancePc s n).reg1 = s.reg1 := rfl
@[simp] theorem advancePc_reg2 (n : Nat) : (advancePc s n).reg2 = s.reg2 := rfl
@[simp] theorem advancePc_ptr (n : Nat) : (advancePc s n).ptr = s.ptr := rfl
@[simp] theorem advancePc_pc (n : Nat) : (advancePc s n).pc = s.pc + BitVec.ofNat 8 n := rfl
@[simp] theorem advancePc_st (n : Nat) : (advancePc s n).st = s.st := rfl
@[simp] theorem advancePc_mem (n : Nat) : (advancePc s n).mem = s.mem := rfl

@[simp] theorem bootReset_reg1 : (bootReset s).reg1 = 0 := rfl
@[simp] theorem bootReset_reg2 : (bootReset s).reg2 = 0 := rfl
@[simp] theorem bootReset_ptr : (bootReset s).ptr = 0 := rfl
@[simp] theorem bootReset_pc : (bootReset s).pc = 0 := rfl
@[simp] theorem bootReset_st : (bootReset s).st = .running := rfl
@[simp] theorem bootReset_mem : (bootReset s).mem = s.mem := rfl

end

/-- Reading back a register just written (00_scope.md section 6). -/
theorem readReg_writeReg (s : State) (r q : RegName) (v : Byte) :
    readReg (writeReg s r v) q = if q = r then v else readReg s q := by
  cases r <;> cases q <;> rfl

/-- Writing a register leaves `st` and memory alone. -/
@[simp] theorem writeReg_st (s : State) (r : RegName) (v : Byte) : (writeReg s r v).st = s.st := by
  cases r <;> rfl

@[simp] theorem writeReg_mem (s : State) (r : RegName) (v : Byte) : (writeReg s r v).mem = s.mem := by
  cases r <;> rfl

/-- Two states with equal fields are equal. -/
theorem State.eq_of_fields {s t : State} (h1 : s.reg1 = t.reg1) (h2 : s.reg2 = t.reg2) (h3 : s.ptr = t.ptr)
    (h4 : s.pc = t.pc) (h5 : s.st = t.st) (h6 : s.mem = t.mem) : s = t := by
  cases s; cases t; simp_all

end Sys2Proof.Machine
end

