-- ==== Sys2Proof/Laws/Memory.lean ====
section
/-! SUPPORT. Memory: what a read after a write gives, that every memory operation keeps the canonical form, and what
`memWrite`, `mergeBytes` and the display make of it (20_memory.md R31 to R33; 10_state.md R21). -/

namespace Sys2Proof.Machine

theorem readCells_insertCell (a : Nat) (v : Byte) (x : Nat) :
    ∀ cells : List Host.Cell, (∀ c ∈ cells, c.1 ≠ a) →
      readCells (insertCell a v cells) x = if x = a then v else readCells cells x := by
  intro cells
  induction cells with
  | nil => intro _; simp [insertCell, readCells, eq_comm]
  | cons c rest ih =>
    intro h
    obtain ⟨b, w⟩ := c
    have hb : b ≠ a := h (b, w) (by simp)
    have ih' := ih (fun c hc => h c (by simp [hc]))
    by_cases hlt : a < b
    · simp only [insertCell, hlt, if_true, readCells]
      by_cases hx : x = a
      · simp [hx]
      · simp [hx, Ne.symm hx]
    · simp only [insertCell, hlt, if_false, readCells, ih']
      by_cases hx : x = a
      · subst hx; simp [hb]
      · simp [hx]

theorem readCells_filter (a x : Nat) :
    ∀ cells : List Host.Cell,
      readCells (cells.filter (fun c => c.1 != a)) x = if x = a then Memory.unlisted else readCells cells x := by
  intro cells
  induction cells with
  | nil => simp [readCells]
  | cons c rest ih =>
    obtain ⟨b, w⟩ := c
    by_cases hb : b = a
    · subst hb
      simp only [List.filter, bne_self_eq_false, ih, readCells]
      by_cases hx : x = b
      · simp [hx]
      · simp [hx, Ne.symm hx]
    · have hne : (b != a) = true := by simpa using hb
      simp only [List.filter, hne, readCells, ih]
      by_cases hx : x = a
      · subst hx; simp [hb]
      · simp [hx]

/-- Everything a write does to a read: the cell written holds the value, every other cell is as before. It holds of
every memory, canonical or not. -/
theorem Memory.read_write (m : Memory) (a : Nat) (v : Byte) (x : Nat) :
    (m.write a v).read x = if x = a then v else m.read x := by
  unfold Memory.write Memory.read
  by_cases hv : v = Memory.unlisted
  · simp only [hv, if_true, readCells_filter]
  · simp only [hv, if_false]
    rw [readCells_insertCell a v x _ (by intro c hc; simpa using (List.mem_filter.1 hc).2), readCells_filter]
    by_cases hx : x = a <;> simp [hx]

theorem cellsOk_mono {lo lo' : Nat} (h : lo' ≤ lo) :
    ∀ {cells : List Host.Cell}, cellsOk lo cells = true → cellsOk lo' cells = true
  | [], _ => rfl
  | (a, v) :: rest, hok => by
    simp only [cellsOk, Bool.and_eq_true, decide_eq_true_eq] at hok ⊢
    exact ⟨⟨⟨h.trans hok.1.1.1, hok.1.1.2⟩, hok.1.2⟩, hok.2⟩

theorem cellsOk_filter (p : Host.Cell → Bool) :
    ∀ {lo : Nat} {cells : List Host.Cell}, cellsOk lo cells = true → cellsOk lo (cells.filter p) = true
  | _, [], _ => rfl
  | lo, (a, v) :: rest, hok => by
    simp only [cellsOk, Bool.and_eq_true, decide_eq_true_eq] at hok
    have ih := cellsOk_filter p hok.2
    by_cases hp : p (a, v) = true
    · simp only [List.filter, hp, cellsOk, Bool.and_eq_true, decide_eq_true_eq]
      exact ⟨⟨⟨hok.1.1.1, hok.1.1.2⟩, hok.1.2⟩, ih⟩
    · simp only [List.filter, hp]
      exact cellsOk_mono (by omega) ih

theorem cellsOk_insertCell {a : Nat} {v : Byte} (ha : a < Config.memSize) (hv : v ≠ Memory.unlisted) :
    ∀ {lo : Nat} {cells : List Host.Cell}, lo ≤ a → (∀ c ∈ cells, c.1 ≠ a) →
      cellsOk lo cells = true → cellsOk lo (insertCell a v cells) = true
  | lo, [], hlo, _, _ => by
    simp only [insertCell, cellsOk, Bool.and_eq_true, decide_eq_true_eq, and_true]
    exact ⟨⟨hlo, ha⟩, hv⟩
  | lo, (b, w) :: rest, hlo, hne, hok => by
    simp only [cellsOk, Bool.and_eq_true, decide_eq_true_eq] at hok
    have hb : b ≠ a := hne (b, w) (by simp)
    by_cases hlt : a < b
    · simp only [insertCell, hlt, if_true, cellsOk, Bool.and_eq_true, decide_eq_true_eq]
      exact ⟨⟨⟨hlo, ha⟩, hv⟩, ⟨⟨⟨hlt, hok.1.1.2⟩, hok.1.2⟩, hok.2⟩⟩
    · simp only [insertCell, hlt, if_false, cellsOk, Bool.and_eq_true, decide_eq_true_eq]
      exact ⟨⟨⟨hok.1.1.1, hok.1.1.2⟩, hok.1.2⟩,
        cellsOk_insertCell ha hv (by omega) (fun c hc => hne c (by simp [hc])) hok.2⟩

/-- A write to an address of the address space keeps the canonical form. -/
theorem Memory.wf_write {m : Memory} {a : Nat} (ha : a < Config.memSize) (v : Byte) (h : m.wf = true) :
    (m.write a v).wf = true := by
  unfold Memory.wf at h ⊢
  unfold Memory.write
  by_cases hv : v = Memory.unlisted
  · simp only [hv, if_true]; exact cellsOk_filter _ h
  · simp only [hv, if_false]
    exact cellsOk_insertCell ha hv (Nat.zero_le a)
      (by intro c hc; simpa using (List.mem_filter.1 hc).2) (cellsOk_filter _ h)

theorem State.reset_mem_wf : State.reset.mem.wf = true := rfl

/-- `MemWrite` keeps the canonical form: its address is a byte (20_memory.md R34). -/
theorem memWrite_wf {s : State} (a v : Byte) (h : s.mem.wf = true) : (memWrite s a v).mem.wf = true :=
  Memory.wf_write a.isLt v h

/-- Everything `MemWrite` does to `MemRead` (20_memory.md R31, R32). -/
theorem memRead_memWrite (s : State) (a v x : Byte) :
    memRead (memWrite s a v) x = if x = a then v else memRead s x := by
  simp only [memRead, memWrite_mem, Memory.read_write, BitVec.toNat_inj]

/-- `MemRead` sees memory only. -/
theorem memRead_congr {s t : State} (h : s.mem = t.mem) (a : Byte) : memRead s a = memRead t a := by
  simp only [memRead, h]

theorem mergeBytes_nil (s : State) : mergeBytes s [] = s := rfl

theorem mergeBytes_cons (s : State) (p : Byte × Byte) (rest : List (Byte × Byte)) :
    mergeBytes s (p :: rest) = mergeBytes (memWrite s p.1 p.2) rest := rfl

/-- A merge writes memory and nothing else (60_exceptions.md R148). -/
theorem mergeBytes_frame (s : State) (bytes : List (Byte × Byte)) :
    mergeBytes s bytes = { s with mem := (mergeBytes s bytes).mem } := by
  induction bytes generalizing s with
  | nil => rfl
  | cons p rest ih => rw [mergeBytes_cons, ih]; rfl

theorem mergeBytes_wf {s : State} (bytes : List (Byte × Byte)) (h : s.mem.wf = true) :
    (mergeBytes s bytes).mem.wf = true := by
  induction bytes generalizing s with
  | nil => exact h
  | cons p rest ih => exact ih (memWrite_wf p.1 p.2 h)

/-- A cell at an address the merge does not name keeps its contents (60_exceptions.md R148). -/
theorem mergeBytes_read_other (s : State) (bytes : List (Byte × Byte)) (x : Nat)
    (h : ∀ p ∈ bytes, p.1.toNat ≠ x) : (mergeBytes s bytes).mem.read x = s.mem.read x := by
  induction bytes generalizing s with
  | nil => rfl
  | cons p rest ih =>
    rw [mergeBytes_cons, ih _ (fun q hq => h q (by simp [hq])), memWrite_mem, Memory.read_write,
      if_neg (Ne.symm (h p (by simp)))]

theorem display_length (s : State) : (display s).length = Config.dispSize := by
  simp [display]

/-- The display sees memory only (10_state.md R21). -/
theorem display_congr {s t : State} (h : s.mem = t.mem) : display s = display t := by
  unfold display displaySlot; rw [h]

end Sys2Proof.Machine
end

