-- ==== Sys2Proof/Laws/Step.lean ====
section
/-! SUPPORT. What a step can do, said once (40_execution_cycle.md R81, R87): the provers cite these instead of
unfolding the step. -/

namespace Sys2Proof.Machine

/-- Every instruction completes: its execute phase cannot fail (41_halt.md, template; 60_exceptions.md R130). -/
theorem exec_total (i : Instr) (s : State) : ∃ t, exec i s = .next t := by
  cases i <;> exact ⟨_, rfl⟩

/-- What an instruction does to memory: STORE writes REG1 at PTR, every other instruction leaves it alone. -/
theorem exec_mem {i : Instr} {s t : State} (h : exec i s = .next t) :
    t.mem = if i = .store then s.mem.write s.ptr.toNat s.reg1 else s.mem := by
  cases i <;> simp only [exec, Host.Outcome.next.injEq, execHalt, execXor, execAdd, execLoad, execStore, execSetPtr,
    execSwap, execSetReg1, execJnz] at h <;> subst h <;> first | rfl | (cases jumpTaken s <;> rfl)

/-- `st` changes only by HALT (10_state.md R12, R17). -/
theorem exec_st {i : Instr} {s t : State} (h : exec i s = .next t) : t.st = if i = .halt then .halted else s.st := by
  cases i <;> simp only [exec, Host.Outcome.next.injEq, execHalt, execXor, execAdd, execLoad, execStore, execSetPtr,
    execSwap, execSetReg1, execJnz] at h <;> subst h <;> first | rfl | (cases jumpTaken s <;> rfl)

/-- REG2 changes only by SWAP (10_state.md R12). -/
theorem exec_reg2 {i : Instr} {s t : State} (h : exec i s = .next t) :
    t.reg2 = if i = .swap then s.reg1 else s.reg2 := by
  cases i <;> simp only [exec, Host.Outcome.next.injEq, execHalt, execXor, execAdd, execLoad, execStore, execSetPtr,
    execSwap, execSetReg1, execJnz] at h <;> subst h <;> first | rfl | (cases jumpTaken s <;> rfl)

/-- PTR changes only by SET_PTR (10_state.md R12). -/
theorem exec_ptr {i : Instr} {s t : State} (h : exec i s = .next t) :
    t.ptr = if i = .setPtr then s.reg1 else s.ptr := by
  cases i <;> simp only [exec, Host.Outcome.next.injEq, execHalt, execXor, execAdd, execLoad, execStore, execSetPtr,
    execSwap, execSetReg1, execJnz] at h <;> subst h <;> first | rfl | (cases jumpTaken s <;> rfl)

/-- The machine fetches exactly what the decoder consumes: a valid opcode is decoded with its own operand. -/
theorem decode_fetchBytes {opc : OpcodeMap} {s : State} {m : Mnemonic}
    (h : decodeOpcode opc (memRead s s.pc) = some m) :
    decode opc (fetchBytes opc s) = .ok (instrOf m (if m.hasOperand then operandByte s else 0), []) := by
  cases hm : m.hasOperand <;> simp [fetchBytes, decode, h, hm]

theorem stepKind_halted {opc : OpcodeMap} {s : State} (h : s.st = .halted) : stepKind opc s = .haltedNoOp := by
  simp [stepKind, h]

theorem stepKind_invalid {opc : OpcodeMap} {s : State} (h : s.st = .running)
    (hd : decodeOpcode opc (memRead s s.pc) = none) :
    stepKind opc s = .invalidOpcode s.pc (memRead s s.pc) := by
  simp [stepKind, h, fetchBytes, decode, hd]

theorem stepKind_valid {opc : OpcodeMap} {s : State} {m : Mnemonic} (h : s.st = .running)
    (hd : decodeOpcode opc (memRead s s.pc) = some m) :
    stepKind opc s = .executed (instrOf m (if m.hasOperand then operandByte s else 0)) := by
  simp [stepKind, h, decode_fetchBytes hd]

/-- Everything the checks of a step can find (40_execution_cycle.md R87). -/
theorem stepKind_cases (opc : OpcodeMap) (s : State) :
    (s.st = .halted ∧ stepKind opc s = .haltedNoOp) ∨
      (s.st = .running ∧ decodeOpcode opc (memRead s s.pc) = none ∧
        stepKind opc s = .invalidOpcode s.pc (memRead s s.pc)) ∨
      ∃ m, s.st = .running ∧ decodeOpcode opc (memRead s s.pc) = some m ∧
        stepKind opc s = .executed (instrOf m (if m.hasOperand then operandByte s else 0)) := by
  cases hs : s.st with
  | halted => exact Or.inl ⟨rfl, stepKind_halted hs⟩
  | running =>
    cases hd : decodeOpcode opc (memRead s s.pc) with
    | none => exact Or.inr (Or.inl ⟨rfl, rfl, stepKind_invalid hs hd⟩)
    | some m => exact Or.inr (Or.inr ⟨m, rfl, rfl, stepKind_valid hs hd⟩)

/-- What an executed step has read: a RUNNING machine, the opcode of the instruction at PC, its operand at PC + 1. -/
theorem stepKind_executed {opc : OpcodeMap} {s : State} {i : Instr} (h : stepKind opc s = .executed i) :
    s.st = .running ∧ decodeOpcode opc (memRead s s.pc) = some i.mnemonic ∧
      i = instrOf i.mnemonic (if i.mnemonic.hasOperand then operandByte s else 0) := by
  rcases stepKind_cases opc s with ⟨_, hk⟩ | ⟨_, _, hk⟩ | ⟨m, hs, hd, hk⟩
  · rw [h] at hk; cases hk
  · rw [h] at hk; cases hk
  · rw [h] at hk
    have hi : i = instrOf m (if m.hasOperand then operandByte s else 0) := by injection hk
    subst hi
    simp [hs, hd]

theorem stepWith_haltedNoOp {opc : OpcodeMap} {s : State} (h : stepKind opc s = .haltedNoOp) :
    stepWith opc s = .next s := by
  simp [stepWith, h]

theorem stepWith_invalidOpcode {opc : OpcodeMap} {s : State} {a op : Byte}
    (h : stepKind opc s = .invalidOpcode a op) : stepWith opc s = .fault (.invalidOpcode a op) := by
  simp [stepWith, h, raiseInvalidOpcode]

theorem stepWith_executed {opc : OpcodeMap} {s : State} {i : Instr} (h : stepKind opc s = .executed i) :
    stepWith opc s = exec i s := by
  simp [stepWith, h]

/-- Everything a step that answers a next state has done: nothing while HALTED, or one instruction. -/
theorem stepWith_next {opc : OpcodeMap} {s t : State} (h : stepWith opc s = .next t) :
    (stepKind opc s = .haltedNoOp ∧ t = s) ∨ ∃ i, stepKind opc s = .executed i ∧ exec i s = .next t := by
  cases hk : stepKind opc s with
  | haltedNoOp => rw [stepWith_haltedNoOp hk] at h; exact Or.inl ⟨rfl, (Host.Outcome.next.inj h).symm⟩
  | invalidOpcode a op => rw [stepWith_invalidOpcode hk] at h; cases h
  | executed i => rw [stepWith_executed hk] at h; exact Or.inr ⟨i, rfl, h⟩

/-- The state a step leaves behind is its next state, or the state it found. -/
theorem stateAfter_cases (opc : OpcodeMap) (s : State) :
    stepWith opc s = .next (stateAfter opc s) ∨
      (∃ a op, stepKind opc s = .invalidOpcode a op) ∧ stateAfter opc s = s := by
  cases hk : stepKind opc s with
  | haltedNoOp => left; simp [stateAfter, stepWith_haltedNoOp hk]
  | invalidOpcode a op => right; exact ⟨⟨a, op, rfl⟩, by simp [stateAfter, stepWith_invalidOpcode hk]⟩
  | executed i =>
    left
    obtain ⟨t, ht⟩ := exec_total i s
    simp [stateAfter, stepWith_executed hk, ht]

end Sys2Proof.Machine
end

