-- ==== Sys2Proof/Laws/Debugger.lean ====
section
/-! SUPPORT. What the host's operations can do (60_exceptions.md R144 to R157). -/

namespace Sys2Proof.Machine

/-- A byte from the host, exactly for the integers 0 to 255 (20_memory.md R34). -/
theorem hostByte_some {n : Int} {b : Byte} : hostByte n = some b ↔ 0 ≤ n ∧ n ≤ 255 ∧ (b.toNat : Int) = n := by
  unfold hostByte
  constructor
  · intro h
    split at h
    · next hn =>
      simp only [Option.some.injEq] at h
      subst h
      refine ⟨hn.1, hn.2, ?_⟩
      rw [BitVec.toNat_ofNat]
      omega
    · cases h
  · rintro ⟨h0, h1, rfl⟩
    simp only [Int.toNat_natCast, BitVec.ofNat_toNat, BitVec.setWidth_eq, ite_eq_left_iff, reduceCtorEq, imp_false,
      not_not]
    exact ⟨h0, h1⟩

theorem hostByte_none {n : Int} : hostByte n = none ↔ ¬(0 ≤ n ∧ n ≤ 255) := by
  unfold hostByte
  split <;> simp_all

theorem mem_insertBreakpoint (a b : Byte) (bp : List Byte) :
    b ∈ insertBreakpoint a bp ↔ b = a ∨ b ∈ bp := by
  induction bp with
  | nil => simp [insertBreakpoint]
  | cons c rest ih =>
    unfold insertBreakpoint
    split
    · next h => subst h; simp
    · split
      · simp
      · simp only [List.mem_cons, ih]; tauto

theorem mem_removeBreakpoint (a b : Byte) (bp : List Byte) :
    b ∈ removeBreakpoint a bp ↔ b ≠ a ∧ b ∈ bp := by
  simp [removeBreakpoint, and_comm]

theorem runLoop_halted {opc : OpcodeMap} {bp : List Byte} {s : State} (stops : List Bool) (h : s.st = .halted) :
    runLoop opc bp stops s = ⟨.stoppedHalted, s, [], []⟩ := by
  cases stops <;> simp [runLoop, h]

/-- One iteration of the loop that reaches its step, when the step does not fail (60_exceptions.md R145). -/
theorem runLoop_step {opc : OpcodeMap} {bp : List Byte} {s : State} {i : Instr} (stops : List Bool)
    (hb : s.pc ∉ bp) (hk : stepKind opc s = .executed i) :
    runLoop opc bp (false :: stops) s =
      ⟨(runLoop opc bp stops (stateAfter opc s)).why, (runLoop opc bp stops (stateAfter opc s)).machine,
        (stepTrace opc s).toList ++ (runLoop opc bp stops (stateAfter opc s)).traces,
        stepUpdates opc s ++ (runLoop opc bp stops (stateAfter opc s)).updates⟩ := by
  have hs : s.st ≠ .halted := fun h => by rw [stepKind_halted h] at hk; cases hk
  simp [runLoop, hs, hb, hk]

end Sys2Proof.Machine
end

