-- ==== Sys2Proof/Laws/PerInstr.lean ====
section
/-! SUPPORT. Two families of lemmas, one lemma for each instruction: the length of its encoding is its size
(30_encoding.md R50, R55), and it is the instruction of its own mnemonic and operand byte (R51). -/

namespace Sys2Proof.Laws

/-- The encoding has as many bytes as the instruction table says (30_encoding.md R50, R55). -/
def EncodeLength.Statement (i : Instr) : Prop :=
  ∀ opc : OpcodeMap, (encode opc i).length = i.size

theorem EncodeLength.halt : EncodeLength.Statement .halt := fun _ => rfl
theorem EncodeLength.xor : EncodeLength.Statement .xor := fun _ => rfl
theorem EncodeLength.add : EncodeLength.Statement .add := fun _ => rfl
theorem EncodeLength.load : EncodeLength.Statement .load := fun _ => rfl
theorem EncodeLength.store : EncodeLength.Statement .store := fun _ => rfl
theorem EncodeLength.setPtr : EncodeLength.Statement .setPtr := fun _ => rfl
theorem EncodeLength.swap : EncodeLength.Statement .swap := fun _ => rfl
theorem EncodeLength.setReg1 (k : Byte) : EncodeLength.Statement (.setReg1 k) := fun _ => rfl
theorem EncodeLength.jnz (k : Byte) : EncodeLength.Statement (.jnz k) := fun _ => rfl

/-- Mnemonic and operand byte determine the instruction (30_encoding.md R51). -/
def OwnFields.Statement (i : Instr) : Prop :=
  instrOf i.mnemonic (i.operand.getD 0) = i ∧ i.operand.isSome = i.mnemonic.hasOperand

theorem OwnFields.halt : OwnFields.Statement .halt := ⟨rfl, rfl⟩
theorem OwnFields.xor : OwnFields.Statement .xor := ⟨rfl, rfl⟩
theorem OwnFields.add : OwnFields.Statement .add := ⟨rfl, rfl⟩
theorem OwnFields.load : OwnFields.Statement .load := ⟨rfl, rfl⟩
theorem OwnFields.store : OwnFields.Statement .store := ⟨rfl, rfl⟩
theorem OwnFields.setPtr : OwnFields.Statement .setPtr := ⟨rfl, rfl⟩
theorem OwnFields.swap : OwnFields.Statement .swap := ⟨rfl, rfl⟩
theorem OwnFields.setReg1 (k : Byte) : OwnFields.Statement (.setReg1 k) := ⟨rfl, rfl⟩
theorem OwnFields.jnz (k : Byte) : OwnFields.Statement (.jnz k) := ⟨rfl, rfl⟩

end Sys2Proof.Laws
end

