-- ==== Sys2Proof/Tests/Slice0.lean ====
section
/-! SUPPORT. Tests with expected results from spec/ (95_test_vectors.md V and S rows, opcode_table.json), the smoke test
of the well-formedness checks, and a witness for the hypotheses of every statement that has some. -/

namespace Sys2Proof.Tests

open Sys2Proof Sys2Proof.Machine

/-- A RUNNING machine: REG1, REG2, PTR, PC and the listed cells. -/
def mk (r1 r2 p pc : Byte) (cells : List Host.Cell) : State := ⟨r1, r2, p, pc, .running, ⟨cells⟩⟩

/-- A HALTED machine. -/
def mkHalted (r1 r2 p pc : Byte) (cells : List Host.Cell) : State := ⟨r1, r2, p, pc, .halted, ⟨cells⟩⟩

/-- A session around a machine. -/
def mkSession (s : State) (bp : List Byte) : Session := ⟨s, bp, none⟩

/-- The state after one step under the default opcode bytes. -/
def after (s : State) : State := stateAfter defaultOpc s

/-- One host move under the default opcode bytes. -/
def move (op : HostOp) (x : Session) : Move := hostMove defaultOpc op x

/-- A line of text. -/
def line (s : String) : Text := s.toList

/-! ## Well-formedness: each check refuses an ill-formed term -/

theorem test_wf_opcodes_accept_default : defaultOpc.distinct = true := by decide
theorem test_wf_opcodes_refuse_repeat :
    OpcodeMap.distinct (fun m => if m = .jnz then 0 else defaultOpc m) = false := by decide
theorem test_wf_arity_refuses_missing : RawInstr.arityOk ⟨.jnz, none⟩ = false := by decide
theorem test_wf_arity_refuses_superfluous : RawInstr.arityOk ⟨.halt, some 5⟩ = false := by decide
theorem test_wf_range_refuses_300 : RawInstr.operandFits ⟨.setReg1, some 300⟩ = false := by decide
theorem test_wf_refuses_each : RawInstr.wellFormed ⟨.jnz, none⟩ = false ∧ RawInstr.wellFormed ⟨.jnz, some 256⟩ = false ∧
    RawInstr.wellFormed ⟨.jnz, some 255⟩ = true := by decide

/-! ## Decoding: words written out bit by bit from opcode_table.json's encodings -/

theorem test_decode_halt : decodeTableWord 8 0b00000000 = some .halt := by decide
theorem test_decode_xor : decodeTableWord 8 0b00000001 = some .xor := by decide
theorem test_decode_add : decodeTableWord 8 0b00000010 = some .add := by decide
theorem test_decode_load : decodeTableWord 8 0b00000011 = some .load := by decide
theorem test_decode_store : decodeTableWord 8 0b00000100 = some .store := by decide
theorem test_decode_setPtr : decodeTableWord 8 0b00000101 = some .setPtr := by decide
theorem test_decode_swap : decodeTableWord 8 0b00000110 = some .swap := by decide
theorem test_decode_setReg1 : decodeTableWord 16 0b0100000100000111 = some (.setReg1 0x41) := by decide
theorem test_decode_jnz : decodeTableWord 16 0b1111111100001000 = some (.jnz 0xFF) := by decide
/-- With only the opcode's bits given, the operand byte is 0. -/
theorem test_decode_short_word : decodeTableWord 8 0b00001000 = some (.jnz 0) := by decide
theorem test_decode_rejects_09 : decodeTableWord 8 0x09 = none ∧ decodeTableWord 16 0x00FF = none := by decide
theorem test_decode_missing_operand : (decode defaultOpc [0x07]).toOption = none := by decide
/-- 30_encoding.md section 7. -/
theorem test_encode_setReg1 : encode defaultOpc (.setReg1 65) = [0x07, 0x41] := by decide
theorem test_encode_jnz : encode defaultOpc (.jnz 255) = [0x08, 0xFF] := by decide

/-! ## Instructions: 95_test_vectors.md part 2 -/

/-- V11. -/
theorem test_halt : after (mk 7 9 3 4 [(9, 1)]) = mkHalted 7 9 3 4 [(9, 1)] := by decide
/-- V14. -/
theorem test_xor : after (mk 0xFF 0x5A 0 7 [(7, 1)]) = mk 0xA5 0x5A 0 8 [(7, 1)] := by decide
/-- V15. -/
theorem test_xor_equal : (after (mk 0x3C 0x3C 0 7 [(7, 1)])).reg1 = 0 := by decide
/-- V19, S1. -/
theorem test_add : after (mk 250 10 0 0 [(0, 2)]) = mk 4 10 0 1 [(0, 2)] := by decide
/-- V21. -/
theorem test_add_wraps : (after (mk 0xFF 0xFF 0 0 [(0, 2)])).reg1 = 0xFE := by decide
/-- V27. -/
theorem test_load : after (mk 0x10 0 0x10 3 [(3, 3), (16, 0x5A)]) = mk 0x5A 0 0x10 4 [(3, 3), (16, 0x5A)] := by decide
/-- V30: the LOAD reads its own opcode byte. -/
theorem test_load_itself : (after (mk 0x77 0 0x20 0x20 [(0x20, 3)])).reg1 = 3 := by decide
/-- V32, S3. -/
theorem test_store_display : displaySlot (after (mk 0x41 0 0xFA 0x30 [(0x30, 4)])) 10 = 0x41 ∧
    stepUpdates defaultOpc (mk 0x41 0 0xFA 0x30 [(0x30, 4)]) = [⟨10, 0x41⟩] := by decide
/-- V39: the STORE overwrites itself and still completes; the 0 is no longer listed. -/
theorem test_store_itself : after (mk 0 0 0x30 0x30 [(0x30, 4)]) = mk 0 0 0x30 0x31 [] := by decide
/-- V42. -/
theorem test_setPtr : after (mk 0xF0 0 0 2 [(2, 5)]) = mk 0xF0 0 0xF0 3 [(2, 5)] := by decide
/-- V44. -/
theorem test_swap : after (mk 0x10 0x5A 0 4 [(4, 6)]) = mk 0x5A 0x10 0 5 [(4, 6)] := by decide
/-- V7: PC wraps. -/
theorem test_swap_wraps : (after (mk 0 0 0 0xFF [(255, 6)])).pc = 0 := by decide
/-- V47. -/
theorem test_setReg1 : after (mk 0 0 0 0 [(0, 7), (1, 0x41)]) = mk 0x41 0 0 2 [(0, 7), (1, 0x41)] := by decide
/-- V8: the operand of an opcode at 255 is at 0. -/
theorem test_setReg1_wraps : after (mk 0 0 0 0xFF [(0, 0x2A), (255, 7)]) = mk 0x2A 0 0 1 [(0, 0x2A), (255, 7)] := by
  decide
/-- V55. -/
theorem test_jnz_taken : (after (mk 0x80 0 0 2 [(2, 8), (3, 0x80)])).pc = 0x80 := by decide
/-- V58: not taken at 255. -/
theorem test_jnz_not_taken_wraps : (after (mk 0 0 0 0xFF [(0, 0x40), (255, 8)])).pc = 1 := by decide

/-! ## The step -/

/-- V1. -/
theorem test_step_power_on : step State.reset = .next (mkHalted 0 0 0 0 []) := rfl
/-- V2. -/
theorem test_step_invalid : step (mk 0x12 0x34 0x56 0x10 [(16, 9)]) = .fault (.invalidOpcode 0x10 9) := rfl
/-- V5. -/
theorem test_step_halted : stepKind defaultOpc (mkHalted 0x12 0x34 0x56 0x10 [(16, 0xFF)]) = .haltedNoOp := by decide
theorem test_withFetchWord :
    stepKind defaultOpc (State.reset.withFetchWord 16 0x4107) = .executed (.setReg1 0x41) := by decide
/-- 40_execution_cycle.md R88. -/
theorem test_trace : stepTrace defaultOpc (mk 0 0 0 0 [(0, 7), (1, 0x41)]) = some ⟨0, 7, some 0x41, 0x41, 0, 0, 2⟩ := by
  decide
/-- 20_memory.md R39. -/
theorem test_accesses_store : stepAccesses defaultOpc (mk 7 0 9 5 [(5, 4)]) = [.read 5, .write 9 7] := by decide

/-! ## The host's moves: V62 to V75 -/

theorem test_reset : (move .reset (mkSession (mkHalted 0xA5 0x5A 0x10 9 [(16, 0xA5), (240, 0x48)]) [3])).session =
    mkSession (mk 0 0 0 0 [(16, 0xA5), (240, 0x48)]) [3] := by decide
theorem test_edit_halted : (move (.edit (.register (line "PC")) 0x20) (mkSession (mkHalted 1 2 3 4 []) [])).session =
    mkSession (mkHalted 1 2 3 0x20 []) [] := by decide
theorem test_edit_display : (move (.edit (.memory 0xF3) 0x4B) Session.powerOn).updates = [⟨3, 0x4B⟩] := by decide
theorem test_edit_range : (move (.edit (.memory 0x10) 300) Session.powerOn).reply = .rejected .operandRangeError := by
  decide
theorem test_addbp_256 : (move (.addbp 256) Session.powerOn).reply = .rejected .invalidAddress := by decide
theorem test_load_keeps : (move (.load [7, 0, 8, 4, 0]) (mkSession (mk 0 0 0 0 [(5, 0xEE)]) [])).session =
    mkSession (mk 0 0 0 0 [(0, 7), (2, 8), (3, 4), (5, 0xEE)]) [] := by decide
theorem test_save : (move (.save 2) (mkSession (mk 0 0 0 0 [(0, 7), (1, 1), (2, 8)]) [])).reply = .bytes [7, 1, 8] := by
  decide
theorem test_run_breakpoint : (move (.run [false]) (mkSession (mk 0 0 0 0 []) [0])).reply = .ran .stoppedAtBreakpoint := by
  decide
/-- V75. -/
theorem test_run_invalid : (move (.run [false, false, false]) (mkSession (mk 0 0 0 0 [(0, 6), (1, 0xFF)]) [])).reply =
    .ran (.failed 1 0xFF) := by decide
/-- The text of P2 with a label, and its bytes. -/
theorem test_assemble : (assemble defaultOpc [line "address_00h:", line "SET_REG1 0", line "JNZ 0x04", line "HALT"]).toOption =
    some [(0, 7), (1, 0), (2, 8), (3, 4), (4, 0)] := by decide
/-- S9. -/
theorem test_assembler_errors : lineInstr (line "JNZ") [] = .error .operandArityError ∧
    lineInstr (line "FOO") [line "1"] = .error .unknownMnemonic ∧
    lineInstr (line "SET_REG1") [line "300"] = .error .operandRangeError := ⟨rfl, rfl, rfl⟩

/-- D12: one or two hexadecimal digits after 0x; log 12: no sign. -/
theorem test_literals : readLiteral (line "0x41") = some 65 ∧ readLiteral (line "0xA") = some 10 ∧
    readLiteral (line "0x041") = none ∧ readLiteral (line "0x") = none ∧ readLiteral (line "-1") = none := by decide

/-- Log 12: a label has no sign, so such a line is read as a mnemonic line, and no mnemonic is spelled so. -/
theorem test_signed_label : readLabel (line "address_-1h:") = none ∧
    assemble defaultOpc [line "address_-1h:"] = .error .unknownMnemonic := by decide

/-! ## Witnesses: for every statement with hypotheses, inputs that meet them, clause by clause and at the ends of a
range -/

theorem witness_EmptyMachine_no_zero_opcode (m : Mnemonic) : defaultOpc m + 1 ≠ 0 := by
  cases m <;> decide
theorem witness_EmptyMachine_zero_opcode : defaultOpc.distinct = true ∧ defaultOpc .halt = 0 := by decide
theorem witness_Halt : (mkSession (mkHalted 0 0 0 9 []) []).machine.st = .halted ∧
    stepKind defaultOpc (mk 0 0 0 9 []) = .executed .halt ∧ (9 : Byte) ∉ ([] : List Byte) ∧ (9 : Byte) ∈ [(9 : Byte)] := by
  decide
theorem witness_Load : stepKind defaultOpc (mk 0 0 4 4 [(4, 3)]) = .executed .load ∧ (mk 0 0 4 4 []).ptr = 4 := by decide
theorem witness_Store_edges : stepKind defaultOpc (mk 1 0 239 4 [(4, 4)]) = .executed .store ∧
    stepKind defaultOpc (mk 1 0 240 4 [(4, 4)]) = .executed .store ∧
    stepKind defaultOpc (mk 1 0 255 4 [(4, 4)]) = .executed .store := by decide
theorem witness_SetReg1_edges : stepKind defaultOpc (mk 0 0 0 0xFF [(0, 0xFF), (255, 7)]) = .executed (.setReg1 0xFF) ∧
    stepKind defaultOpc (mk 0 0 0 0 [(0, 7)]) = .executed (.setReg1 0) ∧ readLiteral (line "256") = some 256 := by decide
theorem witness_Jnz_edges : stepKind defaultOpc (mk 0 0 0 0xFF [(0, 0xFF), (255, 8)]) = .executed (.jnz 0xFF) ∧
    stepKind defaultOpc (mk 0 0 0 0 [(0, 8)]) = .executed (.jnz 0) := by decide
theorem witness_StepRuns_halted : (mkHalted 0 0 0 0 [(0, 9)]).st = .halted := rfl
theorem witness_StepRuns_invalid : (mk 0 0 0 255 [(255, 9)]).st = .running ∧
    decodeOpcode defaultOpc (memRead (mk 0 0 0 255 [(255, 9)]) 255) = none := by decide
theorem witness_Xor_equal : (mk 5 5 0 0 []).reg1 = (mk 5 5 0 0 []).reg2 := rfl
theorem witness_literals : readLiteral (line "0xFF") = some (255 : Byte).toNat ∧
    readLiteral (line "0") = some (0 : Byte).toNat := by decide
theorem witness_StepRuns_valid : (mk 0 0 0 255 [(0, 5), (255, 8)]).st = .running ∧
    decode defaultOpc [memRead (mk 0 0 0 255 [(0, 5), (255, 8)]) 255,
      memRead (mk 0 0 0 255 [(0, 5), (255, 8)]) (255 + 1)] = .ok (.jnz 5, []) := ⟨rfl, rfl⟩
theorem witness_InvalidOpcodeFreezes : (mkSession (mk 1 2 3 0 [(0, 0xFF)]) [7]).machine.st = .running ∧
    decodeOpcode defaultOpc (memRead (mk 1 2 3 0 [(0, 0xFF)]) 0) = none := by decide
theorem witness_HaltedInert : (mkSession (mkHalted 1 2 3 0 [(0, 0xFF)]) []).machine.st = .halted := rfl
theorem witness_RegistersChange_reg2 :
    stepsWith defaultOpc 1 (mk 1 2 3 0 [(0, 6)]) = .next (mk 2 1 3 1 [(0, 6)]) ∧ (1 : Byte) ≠ 2 := ⟨rfl, by decide⟩
theorem witness_RegistersChange_ptr :
    stepsWith defaultOpc 1 (mk 1 2 3 0 [(0, 5)]) = .next (mk 1 2 1 1 [(0, 5)]) ∧ (1 : Byte) ≠ 3 := ⟨rfl, by decide⟩
theorem witness_RegistersChange_st :
    stepsWith defaultOpc 1 (mk 1 2 3 0 []) = .next (mkHalted 1 2 3 0 []) ∧ ExecState.halted ≠ .running := ⟨rfl, by decide⟩
theorem witness_MemoryChanges :
    stepsWith defaultOpc 1 (mk 9 0 255 0 [(0, 4)]) = .next (mk 9 0 255 1 [(0, 4), (255, 9)]) ∧
      (mk 9 0 255 1 [(0, 4), (255, 9)]).mem.read 255 ≠ (mk 9 0 255 0 [(0, 4)]).mem.read 255 := ⟨rfl, by decide⟩
/-- Two machines that differ only in a cell a LOAD step does not read. -/
theorem witness_DependsOnReads (a : Byte)
    (h : Access.read a ∈ stepAccesses defaultOpc (mk 0 0 16 0 [(0, 3), (16, 5)])) :
    memRead (mk 0 0 16 0 [(0, 3), (16, 5)]) a = memRead (mk 0 0 16 0 [(0, 3), (16, 5), (99, 1)]) a := by
  have ha : stepAccesses defaultOpc (mk 0 0 16 0 [(0, 3), (16, 5)]) = [.read 0, .read 16] := by decide
  rw [ha] at h
  simp only [List.mem_cons, Access.read.injEq, List.not_mem_nil, or_false] at h
  rcases h with rfl | rfl <;> decide
theorem witness_DependsOnReads_next :
    stepWith defaultOpc (mk 0 0 16 0 [(0, 3), (16, 5)]) = .next (mk 5 0 16 1 [(0, 3), (16, 5)]) := rfl
theorem witness_StoreSeen_invalid : stepKind defaultOpc (mk 9 0 1 0 [(0, 4)]) = .executed .store ∧
    (mk 9 0 1 0 [(0, 4)]).ptr = (mk 9 0 1 0 [(0, 4)]).pc + 1 ∧ decodeOpcode defaultOpc 9 = none := by decide
theorem witness_StoreSeen_valid : stepKind defaultOpc (mk 8 0 0 255 [(1, 7), (255, 4)]) = .executed .store ∧
    (mk 8 0 0 255 []).ptr = (mk 8 0 0 255 []).pc + 1 ∧
    (decode defaultOpc [8, memRead (mk 8 0 0 255 [(1, 7), (255, 4)]) (255 + 2)]).toOption = some (.jnz 7, []) := by decide
theorem witness_StepKeepsCanonical : (mk 9 0 255 0 [(0, 4)]).mem.wf = true ∧
    stepWith defaultOpc (mk 9 0 255 0 [(0, 4)]) = .next (mk 9 0 255 1 [(0, 4), (255, 9)]) := ⟨rfl, rfl⟩
theorem witness_wf_refuses : Memory.wf ⟨[(3, 1), (2, 1)]⟩ = false ∧ Memory.wf ⟨[(3, 0)]⟩ = false ∧
    Memory.wf ⟨[(256, 1)]⟩ = false ∧ Memory.wf ⟨[(0, 1), (255, 1)]⟩ = true := by decide
theorem witness_CanonicalUnique : ((Memory.write ⟨[]⟩ 255 1).write 0 2).wf = true ∧
    ((Memory.write ⟨[]⟩ 0 2).write 255 1).wf = true ∧
    ∀ a, a < 256 → ((Memory.write ⟨[]⟩ 255 1).write 0 2).read a = ((Memory.write ⟨[]⟩ 0 2).write 255 1).read a := by
  refine ⟨by decide, by decide, ?_⟩
  have h : ((Memory.write ⟨[]⟩ 255 1).write 0 2) = ((Memory.write ⟨[]⟩ 0 2).write 255 1) := by decide
  intro a _; rw [h]
theorem witness_DecodedBytes : decode defaultOpc [8, 5, 1] = .ok (.jnz 5, [1]) := rfl
theorem witness_LengthFromOpcode : decode defaultOpc (8 :: [5]) = .ok (.jnz 5, []) ∧
    decode defaultOpc (8 :: [6, 7]) = .ok (.jnz 6, [7]) := ⟨rfl, rfl⟩
theorem witness_Assembled_exactly_256 : ((List.replicate 256 Instr.halt).map Instr.size).sum ≤ 256 := by
  rw [List.map_replicate, List.sum_replicate]; decide
theorem witness_AssembledFetched : defaultOpc.distinct = true ∧
    (([Instr.setReg1 1] ++ Instr.jnz 0 :: [.halt]).map Instr.size).sum ≤ 256 := by decide
theorem witness_AssemblerRejects : mnemonicOf (line "FOO") = none ∧
    ([] : List Text).length ≠ (if Mnemonic.jnz.hasOperand then 1 else 0) ∧
    [line "1"].length ≠ (if Mnemonic.halt.hasOperand then 1 else 0) ∧
    Mnemonic.jnz.hasOperand = true ∧ readLiteral (line "256") = some 256 := by decide
theorem witness_AssemblerRejects_literals (t : Text) (h : t ∈ [line "1"]) :
    ∃ n, readLiteral t = some n ∧ n ≤ 255 := by
  rw [List.mem_singleton.1 h]; exact ⟨1, by decide⟩
theorem witness_AssemblerRejects_line : readLine (line "FOO 1") = .ok (.code (line "FOO") [line "1"]) ∧
    lineInstr (line "FOO") [line "1"] = .error .unknownMnemonic := ⟨rfl, rfl⟩
theorem witness_Label_edges : digitValue 16 'F' = some 15 ∧ digitValue 16 '0' = some 0 ∧
    readLine (line "address_FFh:") = .ok (.label 255) ∧ readLine (line "address_00h:") = .ok (.label 0) :=
  ⟨by decide, by decide, rfl, rfl⟩
theorem witness_LiteralForms : digitValue 16 'F' = some 15 ∧ digitValue 16 'a' = some 10 ∧
    Mnemonic.setReg1.hasOperand = true ∧ readLiteral (line "0x100") = none := by decide
theorem witness_Rejected_addresses : ¬((0 : Int) ≤ -1 ∧ (-1 : Int) ≤ 255) ∧ ¬((0 : Int) ≤ 256 ∧ (256 : Int) ≤ 255) := by
  decide
theorem witness_Rejected_edit : registerOf (line "REG3") = none ∧ registerOf (line "REG2") ≠ none := by decide
theorem witness_Rejected_program : assemble defaultOpc [line "FOO 1"] = .error .unknownMnemonic := rfl
theorem witness_Rejected_label : readLine (line "address_100h:") = .ok (.label 256) := rfl
theorem witness_Rejected_overflow : readLine (line "JNZ 0") = .ok (.code (line "JNZ") [line "0"]) ∧
    lineInstr (line "JNZ") [line "0"] = .ok (.jnz 0) ∧ 256 < 255 + (Instr.jnz 0).size := ⟨rfl, rfl, by decide⟩
theorem witness_Rejected_load : 256 < (List.replicate 257 (0 : Byte)).length := by rw [List.length_replicate]; decide
theorem witness_Rejected_reply : (move (.clock 0) Session.powerOn).reply = .rejected .invalidRate := by decide
theorem witness_Edit_names : registerOf (line "REG1") = some .reg1 ∧ registerOf (line "PC") = some .pc := by decide
theorem witness_Load_edges : (List.replicate 256 (1 : Byte)).length ≤ 256 ∧ ([] : List Byte).length ≤ 256 ∧
    0 < (List.replicate 256 (1 : Byte)).length := by
  rw [List.length_replicate]; decide
theorem witness_SaveLoad : [(7 : Byte)] ≠ [] ∧ [(7 : Byte)].length ≤ 256 := by decide
/-- The image 07 F0 05 04 runs three steps, the third a STORE above the image. -/
theorem witness_ImageSurvives_run :
    stepsWith defaultOpc 3 (move .reset (move (.load [7, 0xF0, 5, 4]) Session.powerOn).session).session.machine =
      .next (mk 0xF0 0 0xF0 4 [(0, 7), (1, 0xF0), (2, 5), (3, 4), (240, 0xF0)]) := rfl
theorem witness_ImageSurvives_stores (k : Nat) (u : State) (hk : k < 3)
    (hs : stepsWith defaultOpc k (mk 0 0 0 0 [(0, 7), (1, 0xF0), (2, 5), (3, 4)]) = .next u)
    (hx : stepKind defaultOpc u = .executed .store) : 4 ≤ (effectiveAddress u).toNat := by
  match k with
  | 0 => cases hs; revert hx; decide
  | 1 => cases hs; revert hx; decide
  | 2 => cases hs; revert hx; decide
  | k + 3 => omega
theorem witness_RunReachesHalt : stepsWith defaultOpc 2 (mk 1 0 0 0 [(0, 6)]) = .next (mkHalted 0 1 0 1 [(0, 6)]) := rfl
theorem witness_RunSafe : stepsWith defaultOpc 0 (mk 0 0 0 255 [(255, 9)]) = .next (mk 0 0 0 255 [(255, 9)]) ∧
    (mk 0 0 0 255 [(255, 9)]).st = .running := ⟨rfl, rfl⟩
theorem witness_SetPtr_Swap_only : exec .setPtr (mk 1 2 3 0 []) = .next (mk 1 2 1 1 []) ∧ (1 : Byte) ≠ 3 ∧
    exec .swap (mk 1 2 3 0 []) = .next (mk 2 1 3 1 []) ∧ (1 : Byte) ≠ 2 := ⟨rfl, by decide, rfl, by decide⟩
theorem witness_OnlyReset : (mkSession (mkHalted 0 0 0 0 []) []).machine.st = .halted ∧
    HostOp.step ≠ .reset := ⟨rfl, by decide⟩
theorem witness_Breakpoint : (mkSession (mk 0 0 0 255 []) []).machine.st = .running ∧
    (mkSession (mk 0 0 0 255 []) []).machine.pc = 255 := ⟨rfl, rfl⟩
theorem witness_SessionInvariant : (Session.mk (mk 0 0 0 0 [(0, 1), (255, 2)]) [0, 255] (some 1)).wf = true := by decide
theorem witness_SessionInvariant_refuses : (Session.mk (mk 0 0 0 0 []) [4, 4] none).wf = false ∧
    (Session.mk (mk 0 0 0 0 []) [] (some 0)).wf = false := by decide

end Sys2Proof.Tests
end

section
/-! The display as a projection of memory (10_state.md R21): a slot is a `MemRead` at its byte address, and the list of
slots is indexed by slot number. -/

namespace Sys2Proof.Machine

/-- The addresses of the 16 slots, 240 to 255, are bytes: none wraps around (00_scope.md R5). -/
theorem toNat_slotAddress {i : Nat} (hi : i < Config.dispSize) :
    (BitVec.ofNat 8 (Config.dispBase + i)).toNat = Config.dispBase + i := by
  have hlt : Config.dispBase + i < 2 ^ 8 := by simp only [Config.dispBase, Config.dispSize] at hi ⊢; omega
  rw [BitVec.toNat_ofNat, Nat.mod_eq_of_lt hlt]

/-- `D[i]` is what `MemRead` gives at `DISP_BASE + i`. -/
theorem displaySlot_eq_memRead (s : State) {i : Nat} (hi : i < Config.dispSize) :
    displaySlot s i = memRead s (BitVec.ofNat 8 (Config.dispBase + i)) := by
  rw [displaySlot, memRead, toNat_slotAddress hi]

/-- Entry `i` of the display is slot `i`. -/
theorem display_getElem? (s : State) {i : Nat} (hi : i < Config.dispSize) :
    (display s)[i]? = some (displaySlot s i) := by
  rw [display, List.getElem?_map, List.getElem?_range hi, Option.map_some]

/-- Settles O31: the length is `display_length`; the list's entry is the slot, and the slot is the read. -/
theorem displayIsProjection : Obligations.DisplayIsProjection := by
  intro s
  refine ⟨display_length s, fun i hi => ?_⟩
  have hslot := displaySlot_eq_memRead s hi
  exact ⟨(display_getElem? s hi).trans (congrArg some hslot), hslot⟩

end Sys2Proof.Machine
end

section
/-! The opcode lookup and the length it tells (30_encoding.md R52, R54, R56). -/

namespace Sys2Proof

/-- The lookup fails exactly on the bytes no mnemonic has, under any assignment (30_encoding.md R56, R57). -/
theorem decodeOpcode_eq_none_iff {opc : OpcodeMap} {b : Byte} : decodeOpcode opc b = none ↔ ∀ m, opc m ≠ b := by
  simp [decodeOpcode, List.find?_eq_none, Mnemonic.mem_all]

/-- Distinct opcode bytes make the mnemonic found the only one with that byte (30_encoding.md R54, R56). -/
theorem decodeOpcode_eq_some_iff {opc : OpcodeMap} (hinj : Function.Injective opc) {b : Byte} {m : Mnemonic} :
    decodeOpcode opc b = some m ↔ opc m = b := by
  refine ⟨decodeOpcode_some, fun hm => ?_⟩
  cases hd : decodeOpcode opc b with
  | none => exact absurd hm (decodeOpcode_eq_none_iff.1 hd m)
  | some n => rw [hinj ((decodeOpcode_some hd).trans hm.symm)]

/-- Settles O35: `distinct` is injectivity, and then a byte determines its mnemonic. -/
theorem opcodeLookup : Obligations.OpcodeLookup := by
  intro opc hopc b
  have hinj := opc.distinct_iff.1 hopc
  exact ⟨fun _ => decodeOpcode_eq_some_iff hinj, decodeOpcode_eq_none_iff⟩

/-- A decoded instruction has the mnemonic its first byte looks up. -/
theorem decodeOpcode_of_decode {opc : OpcodeMap} {b : Byte} {tail rest : List Byte} {i : Instr}
    (h : decode opc (b :: tail) = .ok (i, rest)) : decodeOpcode opc b = some i.mnemonic := by
  obtain ⟨b', tail', m, hbytes, hd, hi⟩ := decode_ok h
  obtain ⟨rfl, rfl⟩ := List.cons.inj hbytes
  rcases hi with ⟨_, rfl, _⟩ | ⟨_, k, _, rfl⟩ <;> rw [instrOf_mnemonic, hd]

/-- The operand byte has no part in the size (30_encoding.md R52). -/
@[simp] theorem instrOf_size (m : Mnemonic) (k : Byte) : (instrOf m k).size = m.size := by
  rw [Instr.size, instrOf_mnemonic]

/-- `decode` consumes as many bytes as the size of the instruction it gives (30_encoding.md R50, R52). -/
theorem length_eq_of_decode {opc : OpcodeMap} {bytes rest : List Byte} {i : Instr}
    (h : decode opc bytes = .ok (i, rest)) : bytes.length = i.size + rest.length := by
  obtain ⟨b, tail, m, rfl, _, ⟨hm, rfl, rfl⟩ | ⟨hm, k, rfl, rfl⟩⟩ := decode_ok h
  · have hsize : m.size = 1 := by simp [Mnemonic.size, hm]
    simp only [List.length_cons, instrOf_size, hsize]
    omega
  · have hsize : m.size = 2 := by simp [Mnemonic.size, hm]
    simp only [List.length_cons, instrOf_size, hsize]
    omega

/-- Settles O36: the first byte fixes the mnemonic, hence the size, and the size is what is consumed. -/
theorem lengthFromOpcodeByte : Obligations.LengthFromOpcodeByte := by
  intro opc b r r' rest rest' i i' h h'
  have hmnemonic : i.mnemonic = i'.mnemonic :=
    Option.some.inj ((decodeOpcode_of_decode h).symm.trans (decodeOpcode_of_decode h'))
  exact ⟨congrArg Mnemonic.size hmnemonic, length_eq_of_decode h⟩

end Sys2Proof
end

section
/-! The assembler's checks of a mnemonic line, what one line does to an assembly, and that a failure of any line is a
failure of the whole text, which the host's program operation rejects (30_encoding.md R60 to R66; 60_exceptions.md
R139, R148). -/

namespace Sys2Proof.Machine

/-- A name that spells no mnemonic is rejected before its operands are looked at (log 14). -/
theorem lineInstr_unknownMnemonic {name : Text} (ops : List Text) (h : mnemonicOf name = none) :
    lineInstr name ops = .error .unknownMnemonic := by
  simp [lineInstr, h]

/-- The arity check comes before the operand's text is read (log 14): any operands of the wrong number fail it. -/
theorem lineInstr_operandArityError (m : Mnemonic) {ops : List Text}
    (h : ops.length ≠ if m.hasOperand then 1 else 0) :
    lineInstr (mnemonicName m) ops = .error .operandArityError := by
  match ops with
  | [] =>
    have hm : m.hasOperand = true := by simpa using h
    simp [lineInstr, mnemonicOf_mnemonicName, checkRaw, RawInstr.arityOk, hm]
  | [t] =>
    have hm : m.hasOperand = false := by simpa using h
    simp [lineInstr, mnemonicOf_mnemonicName, hm]
  | t :: u :: more => simp [lineInstr, mnemonicOf_mnemonicName]

/-- The one operand of a size-2 instruction is a numeral, but too large for a byte. -/
theorem lineInstr_operandRangeError {m : Mnemonic} {t : Text} {n : Nat} (hm : m.hasOperand = true)
    (ht : readLiteral t = some n) (hn : 255 < n) :
    lineInstr (mnemonicName m) [t] = .error .operandRangeError := by
  simp [lineInstr, mnemonicOf_mnemonicName, hm, ht, checkRaw, RawInstr.arityOk, RawInstr.operandFits, hn]

section
variable {opc : OpcodeMap} {at_ a : Nat} {t name : Text} {ops rest : List Text} {e : HostError} {i : Instr}

/-- A line that cannot be read ends the assembly. -/
theorem assembleFrom_unreadable (ht : readLine t = .error e) : assembleFrom opc at_ (t :: rest) = .error e := by
  simp [assembleFrom, ht]

/-- A label emits nothing and sets the emission address, if that is an address (30_encoding.md R61, R66). -/
theorem assembleFrom_label (ht : readLine t = .ok (.label a)) :
    assembleFrom opc at_ (t :: rest) =
      if a < Config.memSize then assembleFrom opc a rest else .error .addressOverflow := by
  simp [assembleFrom, ht]

/-- A mnemonic line that fails a check ends the assembly (30_encoding.md R63). -/
theorem assembleFrom_rejected (ht : readLine t = .ok (.code name ops)) (hi : lineInstr name ops = .error e) :
    assembleFrom opc at_ (t :: rest) = .error e := by
  simp [assembleFrom, ht, hi]

/-- An instruction line emits its encoding in front of what the later lines emit, if it fits (30_encoding.md R64). -/
theorem assembleFrom_instr (ht : readLine t = .ok (.code name ops)) (hi : lineInstr name ops = .ok i) :
    assembleFrom opc at_ (t :: rest) =
      if at_ + i.size ≤ Config.memSize then
        (assembleFrom opc (at_ + i.size) rest).map (placeBytes at_ (encode opc i) ++ ·)
      else .error .addressOverflow := by
  simp only [assembleFrom, ht, hi]
  cases assembleFrom opc (at_ + i.size) rest <;> rfl

/-- A failure passes up through the line before it: lines that fail from every emission address still do so after one
more line, whatever that line is. -/
theorem assembleFrom_cons_error (hrest : ∀ next, ∃ e, assembleFrom opc next rest = .error e) :
    ∃ e, assembleFrom opc at_ (t :: rest) = .error e := by
  cases ht : readLine t with
  | error e => exact ⟨e, assembleFrom_unreadable ht⟩
  | ok l =>
    cases l with
    | label a =>
      rw [assembleFrom_label ht]
      split
      · exact hrest a
      · exact ⟨_, rfl⟩
    | code name ops =>
      cases hi : lineInstr name ops with
      | error e => exact ⟨e, assembleFrom_rejected ht hi⟩
      | ok i =>
        rw [assembleFrom_instr ht hi]
        split
        · obtain ⟨e, he⟩ := hrest (at_ + i.size)
          exact ⟨e, by rw [he]; rfl⟩
        · exact ⟨_, rfl⟩

/-- Lines that fail from every emission address fail after any lines. -/
theorem assembleFrom_append_error (hrest : ∀ next, ∃ e, assembleFrom opc next rest = .error e)
    (before : List Text) : ∃ e, assembleFrom opc at_ (before ++ rest) = .error e := by
  induction before generalizing at_ with
  | nil => exact hrest at_
  | cons t before ih => exact assembleFrom_cons_error fun _ => ih

/-- `assemble` fails as its lines do (30_encoding.md R60, R63). -/
theorem assemble_error {lines : List Text} (h : assembleFrom opc Config.loadBase lines = .error e) :
    assemble opc lines = .error e := by
  simp [assemble, h]

/-- A text that does not assemble is rejected: the session stays, nothing is merged (60_exceptions.md R139, R148). -/
theorem hostMove_program_error {lines : List Text} (x : Session) (h : assemble opc lines = .error e) :
    hostMove opc (.program lines) x = ⟨x, .rejected e, [], []⟩ := by
  simp [hostMove, h, rejectMove]

end

/-- Settles O41: the three checks of `lineInstr`; and a rejected line fails at every emission address, hence after any
lines before it. -/
theorem assemblerRejectsWholeText : Obligations.AssemblerRejectsWholeText := by
  refine ⟨fun _ ops hname _ => lineInstr_unknownMnemonic ops hname,
    fun m _ hlength _ => lineInstr_operandArityError m hlength,
    fun _ _ _ hm ht hn => lineInstr_operandRangeError hm ht hn, ?_⟩
  intro opc x before after line name ops e hline hinstr
  have hfails : ∀ next, ∃ e', assembleFrom opc next (line :: after) = .error e' :=
    fun _ => ⟨e, assembleFrom_rejected hline hinstr⟩
  obtain ⟨e', he'⟩ := assembleFrom_append_error (at_ := Config.loadBase) hfails before
  exact ⟨e', assemble_error he', hostMove_program_error x (assemble_error he')⟩

end Sys2Proof.Machine
end

section
/-! The PC update of the nine instructions, and the three outcomes of a step with what each leaves behind and lets the
outside see (40_execution_cycle.md R81 to R88). -/

namespace Sys2Proof.Machine

/-- The condition of JNZ is that REG1 is not 0 (45_branch.md R121). -/
theorem jumpTaken_iff (s : State) : jumpTaken s = true ↔ s.reg1 ≠ 0 := by
  simp [jumpTaken]

/-- JNZ writes PC and nothing else: its target if REG1 is not 0, else the address after its operand
(45_branch.md R121). -/
theorem exec_jnz (k : Byte) (s : State) :
    exec (.jnz k) s = .next { s with pc := if s.reg1 = 0 then s.pc + 2 else k } := by
  simp only [exec, execJnz, jumpTaken_iff, ne_eq, ite_not]
  split <;> rfl

/-- The three rows of the PC update: HALT stays, JNZ chooses, every other instruction advances by its size
(40_execution_cycle.md R85). -/
def pcAfter (s : State) : Instr → Byte
  | .halt => s.pc
  | .jnz k => if s.reg1 = 0 then s.pc + 2 else k
  | i => s.pc + BitVec.ofNat 8 i.size

/-- Where an instruction leaves PC (40_execution_cycle.md R85). -/
theorem exec_pc {i : Instr} {s t : State} (h : exec i s = .next t) : t.pc = pcAfter s i := by
  cases i with
  | jnz k =>
    rw [exec_jnz] at h
    obtain rfl := Host.Outcome.next.inj h
    rfl
  | halt | xor | add | load | store | setPtr | swap | setReg1 k =>
    obtain rfl := Host.Outcome.next.inj h
    rfl

/-- A RUNNING machine is HALTED after an instruction exactly if it was HALT (40_execution_cycle.md R87). -/
theorem exec_halts_iff {i : Instr} {s t : State} (hs : s.st = .running) (h : exec i s = .next t) :
    t.st = .halted ↔ i = .halt := by
  rw [exec_st h, hs]
  by_cases hi : i = .halt <;> simp [hi]

section
variable {opc : OpcodeMap} {s t : State} {i : Instr} {a op : Byte}

theorem stateAfter_of_next (h : stepWith opc s = .next t) : stateAfter opc s = t := by
  simp [stateAfter, h]

theorem stateAfter_invalidOpcode (hk : stepKind opc s = .invalidOpcode a op) : stateAfter opc s = s := by
  simp [stateAfter, stepWith_invalidOpcode hk]

theorem stepAccesses_haltedNoOp (hk : stepKind opc s = .haltedNoOp) : stepAccesses opc s = [] := by
  simp [stepAccesses, hk]

/-- The fetch of a byte that is no opcode ends before the operand byte (40_execution_cycle.md R83). -/
theorem stepAccesses_invalid (hs : s.st = .running) (hd : decodeOpcode opc (memRead s s.pc) = none) :
    stepAccesses opc s = [.read s.pc] := by
  simp [stepAccesses, stepKind_invalid hs hd, fetchAccesses, hd]

/-- A read emits no display event (20_memory.md R31). -/
theorem stepUpdates_invalid (hs : s.st = .running) (hd : decodeOpcode opc (memRead s s.pc) = none) :
    stepUpdates opc s = [] := by
  simp [stepUpdates, stepAccesses_invalid hs hd, accessUpdates]

/-- A failed step has no trace record (40_execution_cycle.md R88). -/
theorem stepTrace_invalidOpcode (hk : stepKind opc s = .invalidOpcode a op) : stepTrace opc s = none := by
  simp [stepTrace, hk]

/-- The trace record of an executed step shows the registers its instruction leaves (40_execution_cycle.md R88). -/
theorem stepTrace_executed (hk : stepKind opc s = .executed i) (ht : exec i s = .next t) :
    stepTrace opc s = some ⟨s.pc, memRead s s.pc, i.operand, t.reg1, t.reg2, t.ptr, t.pc⟩ := by
  have hafter : stateAfter opc s = t := stateAfter_of_next ((stepWith_executed hk).trans ht)
  simp [stepTrace, hk, hafter]

/-- The step executes what the decoder reads from the bytes at PC and PC + 1, of which it fetches the second only for
an instruction with an operand (40_execution_cycle.md R81, R84). -/
theorem stepKind_of_decode {rest : List Byte} (hs : s.st = .running)
    (h : decode opc [memRead s s.pc, operandByte s] = .ok (i, rest)) : stepKind opc s = .executed i := by
  obtain ⟨b, tail, m, hbytes, hd, hi⟩ := decode_ok h
  obtain ⟨rfl, rfl⟩ := List.cons.inj hbytes
  rw [stepKind_valid hs hd]
  rcases hi with ⟨hm, rfl, _⟩ | ⟨hm, k, htail, rfl⟩
  · simp [hm]
  · obtain ⟨rfl, _⟩ := List.cons.inj htail
    simp [hm]

end

/-- Settles O18: the three cases of the step's checks; `exec_halts_iff` tells when an executed step halts. -/
theorem stepHasThreeOutcomes : Obligations.StepHasThreeOutcomes := by
  intro opc s
  rcases stepKind_cases opc s with ⟨hs, hk⟩ | ⟨hs, hd, hk⟩ | ⟨m, hs, hd, hk⟩ <;> rw [hk]
  · exact ⟨hs, stepWith_haltedNoOp hk⟩
  · exact ⟨hs, rfl, rfl, hd, stepWith_invalidOpcode hk, stateAfter_invalidOpcode hk⟩
  · obtain ⟨t, ht⟩ := exec_total (instrOf m (if m.hasOperand then operandByte s else 0)) s
    exact ⟨hs, by rw [instrOf_mnemonic, hd], t, ht, (stepWith_executed hk).trans ht, exec_halts_iff hs ht⟩

/-- Settles O14: the instruction completes, and the sizes in `pcAfter` are 2 for SET_REG1 and 1 for the other six. -/
theorem pcUpdate : Obligations.PcUpdate := by
  intro i s
  obtain ⟨t, ht⟩ := exec_total i s
  refine ⟨t, ht, (exec_pc ht).trans ?_⟩
  cases i <;> rfl

/-- Settles O15: each way through the step is the kind that the checks find. -/
theorem stepFollowsTheCycle : Obligations.StepFollowsTheCycle := by
  intro opc s
  refine ⟨fun hs => ?halted, fun hs hd => ?invalid, fun hs i rest hdecode => ?executed⟩
  case halted =>
    have hk : stepKind opc s = .haltedNoOp := stepKind_halted hs
    exact ⟨hk, stepWith_haltedNoOp hk, stepAccesses_haltedNoOp hk⟩
  case invalid => exact stepWith_invalidOpcode (stepKind_invalid hs hd)
  case executed =>
    have hk : stepKind opc s = .executed i := stepKind_of_decode hs hdecode
    obtain ⟨t, ht⟩ := exec_total i s
    refine ⟨hk, t, ht, (stepWith_executed hk).trans ht, stepTrace_executed hk ht, (exec_pc ht).trans ?_⟩
    cases i <;> rfl

/-- Settles O17: the step's four outputs on a byte that is no opcode, put together as the host's move. -/
theorem invalidOpcodeFreezesMachine : Obligations.InvalidOpcodeFreezesMachine := by
  intro opc x hs hd
  have hk := stepKind_invalid hs hd
  refine ⟨stepWith_invalidOpcode hk, stepAccesses_invalid hs hd, ?_⟩
  simp [hostMove, stateAfter_invalidOpcode hk, hk, stepTrace_invalidOpcode hk, stepUpdates_invalid hs hd]

end Sys2Proof.Machine
end

section
/-! HALT (41_halt.md R100): its meaning, that a HALTED machine stays as it is under steps and HALTED under edits, and
where the run loop stops around it. -/

namespace Sys2Proof.Machine

/-- HALT writes `st` only; PC stays on the HALT byte (41_halt.md R100). -/
theorem exec_halt (s : State) : exec .halt s = .next { s with st := .halted } := rfl

/-- Any number of steps leaves a HALTED machine as it is (40_execution_cycle.md R82). -/
theorem stepsWith_halted {opc : OpcodeMap} {s : State} (hs : s.st = .halted) (n : Nat) :
    stepsWith opc n s = .next s := by
  have hstep : stepWith opc s = .next s := stepWith_haltedNoOp (stepKind_halted hs)
  induction n with
  | zero => rfl
  | succ n ih => simp only [stepsWith, hstep, ih]

/-- An edit writes one register or one cell, so it cannot write `st` (60_exceptions.md R147; decision D18). -/
theorem editMachine_st {target : EditTarget} {value : Int} {s t : State} {updates : List DisplayUpdate}
    (h : editMachine target value s = .ok (t, updates)) : t.st = s.st := by
  cases target with
  | register name =>
    cases hr : registerOf name with
    | none => simp [editMachine, hr] at h
    | some r =>
      cases hv : hostByte value with
      | none => simp [editMachine, hr, hv] at h
      | some v =>
        simp only [editMachine, hr, hv, Except.ok.injEq, Prod.mk.injEq] at h
        obtain ⟨rfl, _⟩ := h
        exact writeReg_st ..
  | memory a =>
    cases ha : hostByte a with
    | none => simp [editMachine, ha] at h
    | some b =>
      cases hv : hostByte value with
      | none => simp [editMachine, ha, hv] at h
      | some v =>
        simp only [editMachine, ha, hv, Except.ok.injEq, Prod.mk.injEq] at h
        obtain ⟨rfl, _⟩ := h
        exact memWrite_st ..

/-- The edit command keeps `st`, whether it is carried out or rejected (60_exceptions.md R139, R147). -/
theorem hostMove_edit_st (opc : OpcodeMap) (target : EditTarget) (value : Int) (x : Session) :
    (hostMove opc (.edit target value) x).session.machine.st = x.machine.st := by
  cases hedit : editMachine target value x.machine with
  | error e => simp [hostMove, hedit, rejectMove]
  | ok result =>
    obtain ⟨t, updates⟩ := result
    simpa [hostMove, hedit, machineMove] using editMachine_st hedit

section
variable {opc : OpcodeMap} {bp : List Byte} {s : State}

/-- A run without a stop request stops at a breakpoint before the instruction there, in its first iteration too
(60_exceptions.md R145; decisions D9, D11). -/
theorem runLoop_breakpoint (stops : List Bool) (hs : s.st = .running) (hb : s.pc ∈ bp) :
    runLoop opc bp (false :: stops) s = ⟨.stoppedAtBreakpoint, s, [], []⟩ := by
  simp [runLoop, hs, hb]

/-- An executed HALT leaves the machine HALTED and otherwise as it was. -/
theorem stateAfter_halt (hk : stepKind opc s = .executed .halt) :
    stateAfter opc s = { s with st := .halted } :=
  stateAfter_of_next ((stepWith_executed hk).trans (exec_halt s))

/-- The opcode byte in the trace of an executed instruction is the one of its mnemonic (40_execution_cycle.md R81). -/
theorem memRead_pc_of_executed {i : Instr} (hk : stepKind opc s = .executed i) :
    memRead s s.pc = opc i.mnemonic := by
  obtain ⟨_, hd, _⟩ := stepKind_executed hk
  exact (decodeOpcode_some hd).symm

/-- HALT has no operand, and its trace shows the registers as they were (40_execution_cycle.md R88; 41_halt.md
R100). -/
theorem stepTrace_halt (hk : stepKind opc s = .executed .halt) :
    stepTrace opc s = some ⟨s.pc, opc .halt, none, s.reg1, s.reg2, s.ptr, s.pc⟩ := by
  rw [stepTrace_executed hk (exec_halt s), memRead_pc_of_executed hk]
  rfl

/-- A run that executes a HALT ends in its next iteration, or where its samples end, in the state HALT leaves. -/
theorem runLoop_halt (stops : List Bool) (hb : s.pc ∉ bp) (hk : stepKind opc s = .executed .halt) :
    (runLoop opc bp (false :: stops) s).why = .stoppedHalted ∧
      (runLoop opc bp (false :: stops) s).machine = { s with st := .halted } := by
  rw [runLoop_step stops hb hk, stateAfter_halt hk, runLoop_halted stops rfl]
  exact ⟨rfl, rfl⟩

end

/-- Settles O5: the meaning of HALT, the inertness of the state it leaves under steps and edits, and, for a machine
that stands at a HALT, its trace and where a run stops. -/
theorem haltResult : Obligations.HaltResult := by
  intro opc s
  refine ⟨exec_halt s, rfl, fun n => ⟨stepsWith_halted rfl n, stepKind_halted rfl⟩, bootReset_st _, bootReset_pc _,
    fun x target value hx => (hostMove_edit_st opc target value x).trans hx, fun hk => ⟨stepTrace_halt hk, ?run⟩⟩
  case run =>
    intro bp stops
    refine ⟨fun hb => runLoop_halt stops hb hk, fun hb => ?_⟩
    obtain ⟨hrunning, _, _⟩ := stepKind_executed hk
    rw [runLoop_breakpoint stops hrunning hb]
    exact ⟨rfl, rfl⟩

end Sys2Proof.Machine
end

section
/-! XOR and ADD (42_alu.md R105 to R107): the one shape of both, and the laws of their two operations on bytes. -/

namespace Sys2Proof.Machine

section
variable (op : Byte → Byte → Byte) (s : State) (x y : Byte)

/-- An ALU instruction writes REG1 and PC, and no flag or any other part of the state (42_alu.md R105). -/
theorem aluStep_eq : aluStep op s = { s with reg1 := op s.reg1 s.reg2, pc := s.pc + 1 } := rfl

theorem exec_xor : exec .xor s = .next { s with reg1 := aluXor s.reg1 s.reg2, pc := s.pc + 1 } :=
  congrArg Host.Outcome.next (aluStep_eq aluXor s)

theorem exec_add : exec .add s = .next { s with reg1 := aluAdd s.reg1 s.reg2, pc := s.pc + 1 } :=
  congrArg Host.Outcome.next (aluStep_eq aluAdd s)

@[simp] theorem getLsbD_aluXor (i : Nat) : (aluXor x y).getLsbD i = (x.getLsbD i ^^ y.getLsbD i) :=
  BitVec.getLsbD_xor

/-- Equal operands give 0, so XOR before JNZ tests equality (42_alu.md R106). -/
@[simp] theorem aluXor_self : aluXor x x = 0 :=
  BitVec.xor_self

/-- XOR with the same byte undoes itself (42_alu.md R106). -/
@[simp] theorem aluXor_aluXor_cancel_right : aluXor (aluXor x y) y = x := by
  rw [aluXor, aluXor, BitVec.xor_assoc, BitVec.xor_self, BitVec.xor_zero]

/-- The sum loses its ninth bit (42_alu.md R105, R107). -/
@[simp] theorem toNat_aluAdd : (aluAdd x y).toNat = (x.toNat + y.toNat) % 256 :=
  BitVec.toNat_ofNat ..

/-- Two XORs in a row restore REG1 and advance PC by 2, also past address 255 (42_alu.md R106). -/
theorem exec_xor_after_xor :
    exec .xor { s with reg1 := aluXor s.reg1 s.reg2, pc := s.pc + 1 } = .next { s with pc := s.pc + 2 } := by
  have hpc : s.pc + 1 + 1 = s.pc + 2 := BitVec.add_assoc ..
  rw [exec_xor, aluXor_aluXor_cancel_right, hpc]

end

/-- Settles O6: the bits and both corner cases are the laws of `aluXor`; the rest is the equation `exec_xor`. -/
theorem xorResult : Obligations.XorResult := by
  intro opc s
  refine ⟨rfl, _, exec_xor s, fun i _ => getLsbD_aluXor _ _ i, rfl, fun heq => ?equal, _, exec_xor_after_xor s, rfl⟩
  case equal =>
    change aluXor s.reg1 s.reg2 = 0
    rw [heq, aluXor_self]

/-- Settles O7: the sum is the law of `aluAdd`; the rest is the equation `exec_add`. -/
theorem addResult : Obligations.AddResult := by
  intro opc s
  exact ⟨rfl, _, exec_add s, toNat_aluAdd _ _, rfl⟩

end Sys2Proof.Machine
end

section
/-! LOAD and STORE (43_memory_access.md R110 to R112): their meanings, the memory accesses of a step that executes one,
and what a write does to the display. -/

namespace Sys2Proof.Machine

section
variable (s : State) (a v : Byte)

/-- The address is PTR as it stands, with no offset (43_memory_access.md R110). -/
theorem effectiveAddress_eq : effectiveAddress s = s.ptr :=
  readReg_ptr s

/-- LOAD writes REG1 and PC only (43_memory_access.md R111). -/
theorem exec_load :
    exec .load s = .next { s with reg1 := memRead s (effectiveAddress s), pc := s.pc + 1 } := rfl

/-- STORE is one `MemWrite` and the advance of PC (43_memory_access.md R112). -/
theorem exec_store :
    exec .store s = .next { memWrite s (effectiveAddress s) s.reg1 with pc := s.pc + 1 } := rfl

/-- Everything `MemWrite` does to a display slot (10_state.md R21; 20_memory.md R32). -/
theorem displaySlot_memWrite (i : Nat) :
    displaySlot (memWrite s a v) i = if Config.dispBase + i = a.toNat then v else displaySlot s i :=
  Memory.read_write ..

/-- A write into the display-mapped region shows in its slot, whose number is the address less `DISP_BASE`. -/
theorem displaySlot_memWrite_self {a : Byte} (ha : Config.dispBase ≤ a.toNat) :
    displaySlot (memWrite s a v) (a.toNat - Config.dispBase) = v := by
  rw [displaySlot_memWrite, if_pos (Nat.add_sub_cancel' ha)]

/-- A write below the display-mapped region leaves the display alone (20_memory.md R32). -/
theorem display_memWrite_of_lt {a : Byte} (ha : a.toNat < Config.dispBase) :
    display (memWrite s a v) = display s := by
  refine List.map_congr_left fun i _ => ?_
  have hother : Config.dispBase + i ≠ a.toNat := by omega
  rw [displaySlot_memWrite, if_neg hother]

end

section
variable {opc : OpcodeMap} {s : State} {i : Instr}

/-- A step that executes an instruction without an operand fetches one byte, then makes the instruction's own accesses
(20_memory.md R39). -/
theorem stepAccesses_executed_of_no_operand (hk : stepKind opc s = .executed i)
    (hi : i.mnemonic.hasOperand = false) : stepAccesses opc s = .read s.pc :: execAccesses i s := by
  obtain ⟨_, hd, _⟩ := stepKind_executed hk
  simp [stepAccesses, hk, fetchAccesses, hd, hi]

/-- LOAD reads its opcode byte, then its data byte (20_memory.md R39). -/
theorem stepAccesses_load (hk : stepKind opc s = .executed .load) :
    stepAccesses opc s = [.read s.pc, .read (effectiveAddress s)] :=
  stepAccesses_executed_of_no_operand hk rfl

/-- STORE reads its opcode byte, then makes its one write (20_memory.md R39). -/
theorem stepAccesses_store (hk : stepKind opc s = .executed .store) :
    stepAccesses opc s = [.read s.pc, .write (effectiveAddress s) s.reg1] :=
  stepAccesses_executed_of_no_operand hk rfl

/-- Reads emit no display event (20_memory.md R31). -/
theorem stepUpdates_load (hk : stepKind opc s = .executed .load) : stepUpdates opc s = [] := by
  simp [stepUpdates, stepAccesses_load hk, accessUpdates]

/-- The events of STORE are those of its `MemWrite`, whatever the byte was before (20_memory.md R32; decision D20). -/
theorem stepUpdates_store (hk : stepKind opc s = .executed .store) :
    stepUpdates opc s = displayUpdates (effectiveAddress s) s.reg1 := by
  simp [stepUpdates, stepAccesses_store hk, accessUpdates]

end

/-- Settles O8: the equation `exec_load` and the two reads of its step; with PTR = PC both read the opcode byte. -/
theorem loadResult : Obligations.LoadResult := by
  intro opc s
  refine ⟨rfl, effectiveAddress_eq s, exec_load s,
    fun hk => ⟨stepUpdates_load hk, stepAccesses_load hk, fun hptr => ?own⟩⟩
  case own =>
    rw [effectiveAddress_eq, hptr]
    exact memRead_pc_of_executed hk

/-- Settles O9: by `exec_store` the next state's memory is that of one `MemWrite` at PTR, whose effect on cells, on the
display and as events is said by the laws above. -/
theorem storeResult : Obligations.StoreResult := by
  intro opc s
  refine ⟨rfl, effectiveAddress_eq s, _, exec_store s, rfl, Memory.read_write _ _ _, ?slot, ?below, ?events⟩
  case slot => exact fun hptr => displaySlot_memWrite_self s s.reg1 hptr
  case below => exact fun hptr => (display_congr rfl).trans (display_memWrite_of_lt s s.reg1 hptr)
  case events => exact fun hk => stepUpdates_store hk

end Sys2Proof.Machine
end

section
/-! SET_PTR, SWAP and SET_REG1 (44_register_moves.md R115 to R117): their meanings, and what an instruction with an
operand takes from memory and from assembly text. -/

namespace Sys2Proof.Machine

section
variable (k : Byte) (s : State)

/-- SET_PTR writes PTR and PC only (44_register_moves.md R115). -/
theorem exec_setPtr : exec .setPtr s = .next { s with ptr := s.reg1, pc := s.pc + 1 } := rfl

/-- SWAP reads both registers before it writes either (44_register_moves.md R116). -/
theorem exec_swap : exec .swap s = .next { s with reg1 := s.reg2, reg2 := s.reg1, pc := s.pc + 1 } := rfl

/-- SET_REG1 writes REG1, and PC past its operand (44_register_moves.md R117). -/
theorem exec_setReg1 : exec (.setReg1 k) s = .next { s with reg1 := k, pc := s.pc + 2 } := rfl

/-- Two SWAPs in a row restore both registers and advance PC by 2, also past address 255 (44_register_moves.md
R116). -/
theorem exec_swap_after_swap :
    exec .swap { s with reg1 := s.reg2, reg2 := s.reg1, pc := s.pc + 1 } = .next { s with pc := s.pc + 2 } := by
  have hpc : s.pc + 1 + 1 = s.pc + 2 := BitVec.add_assoc ..
  rw [exec_swap, hpc]

end

section
variable {s t : State} {i : Instr}

/-- SET_PTR is the only instruction that writes PTR (44_register_moves.md R115). -/
theorem eq_setPtr_of_ptr_ne (h : exec i s = .next t) (hptr : t.ptr ≠ s.ptr) : i = .setPtr := by
  by_contra hi
  exact hptr ((exec_ptr h).trans (if_neg hi))

/-- SWAP is the only instruction that writes REG2 (44_register_moves.md R116). -/
theorem eq_swap_of_reg2_ne (h : exec i s = .next t) (hreg2 : t.reg2 ≠ s.reg2) : i = .swap := by
  by_contra hi
  exact hreg2 ((exec_reg2 h).trans (if_neg hi))

end

section
variable {opc : OpcodeMap} {s : State} {i : Instr}

/-- The operand of an executed instruction is the byte at PC + 1 (30_encoding.md R53; 40_execution_cycle.md R84). -/
theorem operand_eq_of_executed (hk : stepKind opc s = .executed i) (hi : i.mnemonic.hasOperand = true) :
    i.operand = some (operandByte s) := by
  obtain ⟨_, _, hinstr⟩ := stepKind_executed hk
  rw [if_pos hi] at hinstr
  rw [hinstr, instrOf_operand, if_pos hi]

/-- A step that executes an instruction with an operand fetches its two bytes in order, then makes the instruction's
own accesses (20_memory.md R39). -/
theorem stepAccesses_executed_of_operand (hk : stepKind opc s = .executed i) (hi : i.mnemonic.hasOperand = true) :
    stepAccesses opc s = .read s.pc :: .read (operandAddress s) :: execAccesses i s := by
  obtain ⟨_, hd, _⟩ := stepKind_executed hk
  simp [stepAccesses, hk, fetchAccesses, hd, hi]

end

/-- A size-2 mnemonic with one literal that is a byte is the instruction with that operand (30_encoding.md R62, R63). -/
theorem lineInstr_byte {m : Mnemonic} {t : Text} {k : Byte} (hm : m.hasOperand = true)
    (ht : readLiteral t = some k.toNat) : lineInstr (mnemonicName m) [t] = .ok (instrOf m k) := by
  have hfits : k.toNat ≤ 255 := Nat.le_of_lt_succ k.isLt
  simp [lineInstr, mnemonicOf_mnemonicName, hm, ht, checkRaw, RawInstr.arityOk, RawInstr.operandFits, hfits]

/-- Settles O10: the equation `exec_setPtr`, and `exec_ptr` for every other instruction. -/
theorem setPtrResult : Obligations.SetPtrResult := by
  intro opc s
  exact ⟨rfl, exec_setPtr s, fun _ _ => eq_setPtr_of_ptr_ne⟩

/-- Settles O11: the equation `exec_swap`, used twice, and `exec_reg2` for every other instruction. -/
theorem swapResult : Obligations.SwapResult := by
  intro opc s
  exact ⟨rfl, _, exec_swap s, rfl, exec_swap_after_swap s, fun _ _ => eq_swap_of_reg2_ne⟩

/-- Settles O12: the equation `exec_setReg1`; what its step fetches and what its line in assembly gives are those of
any instruction with an operand. -/
theorem setReg1Result : Obligations.SetReg1Result := by
  intro opc k s
  refine ⟨rfl, exec_setReg1 k s, fun hk => ⟨?operand, stepAccesses_executed_of_operand hk rfl⟩,
    fun _ ht => lineInstr_byte rfl ht, lineInstr_operandArityError .setReg1 (ops := []) (by decide),
    fun _ _ ht hn => lineInstr_operandRangeError rfl ht hn⟩
  case operand => exact Option.some.inj (operand_eq_of_executed hk rfl)

end Sys2Proof.Machine
end

section
/-! JNZ (45_branch.md R120, R121). Its meaning is `exec_jnz`; what it fetches and how it is written in assembly are
those of any instruction with an operand. What is left to say is that its step shows nothing on the display. -/

namespace Sys2Proof.Machine

/-- JNZ reads its two bytes and accesses memory no further, whether or not it jumps (20_memory.md R39;
45_branch.md R121). -/
theorem stepAccesses_jnz {opc : OpcodeMap} {s : State} {k : Byte} (hk : stepKind opc s = .executed (.jnz k)) :
    stepAccesses opc s = [.read s.pc, .read (operandAddress s)] :=
  stepAccesses_executed_of_operand hk rfl

/-- Reads emit no display event (20_memory.md R31). -/
theorem stepUpdates_jnz {opc : OpcodeMap} {s : State} {k : Byte} (hk : stepKind opc s = .executed (.jnz k)) :
    stepUpdates opc s = [] := by
  simp [stepUpdates, stepAccesses_jnz hk, accessUpdates]

/-- Settles O13: the equation `exec_jnz` holds both branches; the fetch of the operand and the line in assembly do not
depend on REG1. -/
theorem jnzResult : Obligations.JnzResult := by
  intro opc k s
  refine ⟨rfl, exec_jnz k s, fun hk => ⟨?operand, stepAccesses_jnz hk, stepUpdates_jnz hk⟩,
    fun _ ht => lineInstr_byte rfl ht, lineInstr_operandArityError .jnz (ops := []) (by decide)⟩
  case operand => exact Option.some.inj (operand_eq_of_executed hk rfl)

end Sys2Proof.Machine
end

section
/-! Inspection (60_exceptions.md R157): each kind is a `readMove`, whose session is the one given and which has no trace
and no display event. A cell's address comes from the host as an integer, and every byte is such an address. -/

namespace Sys2Proof.Machine

/-- No byte the host gives is out of range (20_memory.md R34). -/
@[simp] theorem hostByte_toNat (a : Byte) : hostByte a.toNat = some a :=
  have hle : a.toNat ≤ 255 := Nat.le_of_lt_succ a.isLt
  hostByte_some.2 ⟨Int.natCast_nonneg _, Int.ofNat_le.2 hle, rfl⟩

section
variable (opc : OpcodeMap) (x : Session)

/-- Inspecting a register or PC only reads it (60_exceptions.md R157). -/
theorem hostMove_readRegister (r : RegName) :
    hostMove opc (.readRegister r) x = readMove x (.byte (readReg x.machine r)) := rfl

/-- Inspecting `st` only reads it (60_exceptions.md R157). -/
theorem hostMove_readExecState : hostMove opc .readExecState x = readMove x (.execState x.machine.st) := rfl

/-- Inspecting the cell at a byte address is not rejected, and only reads it (60_exceptions.md R157). -/
theorem hostMove_readMemory (a : Byte) :
    hostMove opc (.readMemory a.toNat) x = readMove x (.byte (memRead x.machine a)) := by
  simp only [hostMove, hostByte_toNat]

/-- Reading the display only reads it (60_exceptions.md R152, R157). -/
theorem hostMove_readDisplay : hostMove opc .readDisplay x = readMove x (.bytes (display x.machine)) := rfl

end

/-- Settles O53: one equation for each kind of inspection, and what each register's name reads. -/
theorem inspectionChangesNothing : Obligations.InspectionChangesNothing := by
  intro opc x
  exact ⟨hostMove_readRegister opc x, readReg_reg1 _, readReg_reg2 _, readReg_ptr _, readReg_pc _,
    hostMove_readExecState opc x, hostMove_readMemory opc x, hostMove_readDisplay opc x⟩

end Sys2Proof.Machine
end

section
/-! Boot and reset (70_reset_and_hazards.md R161). The host's reset is a `machineMove` to the machine `bootReset` gives,
with no display event; each field of that machine has its lemma, and the display follows memory, which is kept. -/

namespace Sys2Proof.Machine

/-- The host's reset boots the machine and emits no `DisplayUpdate` (70_reset_and_hazards.md R161). -/
theorem hostMove_reset (opc : OpcodeMap) (x : Session) :
    hostMove opc .reset x = machineMove x (bootReset x.machine) [] := rfl

/-- The display is a projection of memory, which boot and reset leave alone (10_state.md R21;
70_reset_and_hazards.md R161). -/
theorem display_bootReset (s : State) : display (bootReset s) = display s :=
  display_congr (bootReset_mem s)

/-- Settles O2: `hostMove_reset` gives the machine after the move and its events; the registers, `st` and memory are
read off field by field, and the display is `display_bootReset`. -/
theorem resetZeroesRegistersOnly : Obligations.ResetZeroesRegistersOnly := by
  intro opc x m
  have hm : m = machineMove x (bootReset x.machine) [] := hostMove_reset opc x
  exact ⟨congrArg (·.session.machine) hm, bootReset_reg1 _, bootReset_reg2 _, bootReset_ptr _, bootReset_pc _,
    bootReset_st _, bootReset_mem _, display_bootReset _, congrArg Move.updates hm⟩

end Sys2Proof.Machine
end

section
/-! Decoder and encoder against each other, the number of invalid opcodes, and the rows of the opcode table under the
default bytes (30_encoding.md sections 1 to 4). -/

namespace Sys2Proof

section
variable {opc : OpcodeMap} {b k : Byte} {m : Mnemonic}

/-- A byte that is the opcode of a size-1 instruction is decoded without a look at what follows (30_encoding.md R51). -/
theorem decode_of_no_operand (rest : List Byte) (hd : decodeOpcode opc b = some m) (hm : m.hasOperand = false) :
    decode opc (b :: rest) = .ok (instrOf m 0, rest) := by
  simp [decode, hd, hm]

/-- The opcode byte of a size-2 instruction is decoded with the byte after it (30_encoding.md R51). -/
theorem decode_of_operand (rest : List Byte) (hd : decodeOpcode opc b = some m) (hm : m.hasOperand = true) :
    decode opc (b :: k :: rest) = .ok (instrOf m k, rest) := by
  simp [decode, hd, hm]

/-- The bytes of the instruction with a given mnemonic and operand byte (30_encoding.md R51). -/
theorem encode_instrOf (opc : OpcodeMap) (m : Mnemonic) (k : Byte) :
    encode opc (instrOf m k) = opc m :: if m.hasOperand then [k] else [] := by
  rw [encode, instrOf_mnemonic, instrOf_operand]
  cases m.hasOperand <;> rfl

/-- The encoding has as many bytes as the instruction table says (30_encoding.md R50, R55). -/
@[simp] theorem encode_length (opc : OpcodeMap) (i : Instr) : (encode opc i).length = i.size := by
  cases i <;> rfl

/-- Every instruction has an opcode byte (30_encoding.md R50). -/
theorem Instr.size_pos (i : Instr) : 0 < i.size := by
  rw [← encode_length defaultOpc i]
  exact Nat.succ_pos _

/-- The opcode byte of a mnemonic is looked up as that mnemonic, if no other has the same byte (30_encoding.md R56). -/
theorem decodeOpcode_self (hopc : opc.distinct = true) (m : Mnemonic) : decodeOpcode opc (opc m) = some m :=
  (decodeOpcode_eq_some_iff (opc.distinct_iff.1 hopc)).2 rfl

end

/-- Settles O33: the first byte is looked up as the instruction's mnemonic, which tells the decoder whether the next
byte is its operand. -/
theorem decodeEncodeRoundTrip : Obligations.DecodeEncodeRoundTrip := by
  intro opc hopc i rest
  have hd := decodeOpcode_self hopc i.mnemonic
  cases i with
  | halt | xor | add | load | store | setPtr | swap => exact decode_of_no_operand rest hd rfl
  | setReg1 k | jnz k => exact decode_of_operand rest hd rfl

/-- Settles O34: `decode_ok` names the bytes consumed, and they are those of `encode_instrOf`. -/
theorem decodedBytesAreTheEncoding : Obligations.DecodedBytesAreTheEncoding := by
  intro opc bytes i rest h
  refine ⟨?bytes, encode_length opc i⟩
  obtain ⟨b, tail, m, rfl, hd, ⟨hm, rfl, rfl⟩ | ⟨hm, k, rfl, rfl⟩⟩ := decode_ok h
  · simp [encode_instrOf, hm, decodeOpcode_some hd]
  · simp [encode_instrOf, hm, decodeOpcode_some hd]

/-- The valid opcodes among the 256 byte values are the nine bytes of the assignment, each once. -/
theorem validOpcodes_perm {opc : OpcodeMap} (hopc : opc.distinct = true) :
    ((List.range 256).filter fun n => (decodeOpcode opc (BitVec.ofNat 8 n)).isSome).Perm
      (Mnemonic.all.map fun m => (opc m).toNat) := by
  have hinj := opc.distinct_iff.1 hopc
  have hnodup : (Mnemonic.all.map fun m => (opc m).toNat).Nodup :=
    List.Nodup.map (fun m n h => hinj (BitVec.eq_of_toNat_eq h)) (by decide)
  refine (List.perm_ext_iff_of_nodup (List.nodup_range.filter _) hnodup).2 fun n => ?_
  simp only [List.mem_filter, List.mem_range, List.mem_map, Option.isSome_iff_exists, decodeOpcode_eq_some_iff hinj]
  constructor
  · rintro ⟨hn, m, hm⟩
    exact ⟨m, m.mem_all, by rw [hm, BitVec.toNat_ofNat, Nat.mod_eq_of_lt hn]⟩
  · rintro ⟨m, _, rfl⟩
    exact ⟨(opc m).isLt, m, by simp⟩

/-- The default opcode bytes are those below 9 (30_encoding.md R54; decision D1). -/
theorem exists_defaultOpc_iff (b : Byte) : (∃ m, defaultOpc m = b) ↔ b.toNat < 9 := by
  constructor
  · rintro ⟨m, rfl⟩
    cases m <;> decide
  · intro hb
    have hrows : ∀ n : Fin 9, ∃ m ∈ Mnemonic.all, (defaultOpc m).toNat = n := by decide
    obtain ⟨m, _, hm⟩ := hrows ⟨b.toNat, hb⟩
    exact ⟨m, BitVec.eq_of_toNat_eq hm⟩

/-- Settles O37: the 256 byte values are the nine valid opcodes and the invalid ones; under the default the valid ones
are those below 9. -/
theorem invalidOpcodeCount : Obligations.InvalidOpcodeCount := by
  refine ⟨fun opc hopc => ?count, fun b => ?default⟩
  case count =>
    have hvalid : ((List.range 256).filter fun n => (decodeOpcode opc (BitVec.ofNat 8 n)).isSome).length = 9 :=
      (validOpcodes_perm hopc).length_eq.trans (List.length_map ..)
    have hall := List.length_eq_length_filter_add (l := List.range 256)
      fun n => (decodeOpcode opc (BitVec.ofNat 8 n)).isSome
    simp only [Option.not_isSome, hvalid, List.length_range] at hall
    omega
  case default =>
    rw [decodeOpcode_eq_none_iff, ← not_exists, exists_defaultOpc_iff, not_lt]

/-- The word of a size-2 row is its opcode byte in bits 7 to 0 and its operand in bits 15 to 8 (opcode_table.json). -/
theorem tableBytes_operand (op k : Byte) : tableBytes 16 (k.toNat * 256 + op.toNat) = (op, k) := by
  have hk := k.isLt
  have hop := op.isLt
  refine Prod.ext (BitVec.eq_of_toNat_eq ?_) (BitVec.eq_of_toNat_eq ?_) <;>
    simp only [tableBytes, BitVec.toNat_ofNat] <;> omega

/-- The word of a size-2 row decodes to its instruction, for every operand. -/
theorem decodeTableWord_operand {m : Mnemonic} (hm : m.hasOperand = true) (k : Byte) :
    decodeTableWord 16 (k.toNat * 256 + (defaultOpc m).toNat) = some (instrOf m k) := by
  simp [decodeTableWord, tableBytes_operand, decode_of_operand [] (decodeOpcode_self defaultOpc_distinct m) hm]

/-- Settles O38: the seven words without operand are evaluated; the two rows with one hold for every operand byte. -/
theorem defaultWordsDecode : Obligations.DefaultWordsDecode := by
  refine ⟨?_, ?_, ?_, ?_, ?_, ?_, ?_, ?setReg1, ?jnz⟩
  case setReg1 => exact decodeTableWord_operand (m := .setReg1) rfl
  case jnz => exact decodeTableWord_operand (m := .jnz) rfl
  all_goals decide

end Sys2Proof
end

section
/-! The canonical form of memory: it is unique, every step keeps it, and a write of the byte a cell holds is no change
(log 6); and what a cell reads after any sequence of writes (20_memory.md section 3). -/

namespace Sys2Proof.Machine

/-- The parts of the canonical form of a list with a first cell. -/
theorem cellsOk_cons {lo a : Nat} {v : Byte} {rest : List Host.Cell} :
    cellsOk lo ((a, v) :: rest) = true ↔
      lo ≤ a ∧ a < Config.memSize ∧ v ≠ Memory.unlisted ∧ cellsOk (a + 1) rest = true := by
  simp only [cellsOk, Bool.and_eq_true, decide_eq_true_eq, and_assoc]

/-- Below its first possible address a canonical list reads as unlisted. -/
theorem readCells_of_lt {a : Nat} :
    ∀ {lo : Nat} {cells : List Host.Cell}, cellsOk lo cells = true → a < lo → readCells cells a = Memory.unlisted
  | _, [], _, _ => rfl
  | lo, (b, v) :: rest, hok, ha => by
    obtain ⟨hlo, _, _, hrest⟩ := cellsOk_cons.1 hok
    rw [readCells, if_neg (by omega), readCells_of_lt hrest (by omega)]

/-- The first cell of a canonical list is told by the reads: it stands in every canonical list that reads the same,
so no such list begins later. -/
theorem cellsOk_head_le {lo lo' a : Nat} {v : Byte} {rest cells : List Host.Cell}
    (hok : cellsOk lo ((a, v) :: rest) = true) (hok' : cellsOk lo' cells = true)
    (hread : ∀ x, x < Config.memSize → readCells ((a, v) :: rest) x = readCells cells x) : lo' ≤ a := by
  obtain ⟨_, ha, hv, _⟩ := cellsOk_cons.1 hok
  by_contra hlt
  have hhead := hread a ha
  rw [readCells, if_pos rfl, readCells_of_lt hok' (not_le.1 hlt)] at hhead
  exact hv hhead

/-- Canonical lists that read the same at every address are the same list. -/
theorem cellsOk_ext :
    ∀ {lo lo' : Nat} {cells cells' : List Host.Cell}, cellsOk lo cells = true → cellsOk lo' cells' = true →
      (∀ x, x < Config.memSize → readCells cells x = readCells cells' x) → cells = cells'
  | _, _, [], [], _, _, _ => rfl
  | _, _, [], (b, w) :: rest', _, hok', hread =>
    have hmem : Config.memSize ≤ b := cellsOk_head_le hok' (cells := []) rfl fun x hx => (hread x hx).symm
    absurd (cellsOk_cons.1 hok').2.1 (not_lt.2 hmem)
  | _, _, (a, v) :: rest, [], hok, _, hread =>
    have hmem : Config.memSize ≤ a := cellsOk_head_le hok (cells := []) rfl hread
    absurd (cellsOk_cons.1 hok).2.1 (not_lt.2 hmem)
  | _, _, (a, v) :: rest, (b, w) :: rest', hok, hok', hread => by
    obtain ⟨_, ha, hv, hrest⟩ := cellsOk_cons.1 hok
    obtain ⟨_, hb, hw, hrest'⟩ := cellsOk_cons.1 hok'
    have hba : b ≤ a := cellsOk_head_le hok (cellsOk_cons.2 ⟨le_rfl, hb, hw, hrest'⟩) hread
    have hab : a ≤ b := cellsOk_head_le hok' (cellsOk_cons.2 ⟨le_rfl, ha, hv, hrest⟩) fun x hx => (hread x hx).symm
    obtain rfl : a = b := le_antisymm hab hba
    have hvw : v = w := by simpa [readCells] using hread a ha
    have htails : rest = rest' := cellsOk_ext hrest hrest' fun x hx => by
      by_cases hxa : a = x
      · rw [readCells_of_lt hrest (by omega), readCells_of_lt hrest' (by omega)]
      · simpa [readCells, hxa] using hread x hx
    rw [hvw, htails]

/-- Settles O28: a memory is its list of cells, and the canonical one is told by the reads. -/
theorem canonicalMemoryIsUnique : Obligations.CanonicalMemoryIsUnique := by
  intro m m' hm hm' hread
  exact congrArg Memory.mk (cellsOk_ext hm hm' hread)

/-- Settles O29: the memory after the write is canonical and reads the same, so it is the same memory. -/
theorem writeBackChangesNothing : Obligations.WriteBackChangesNothing := by
  intro s a hwf
  have hmem : (memWrite s a (memRead s a)).mem = s.mem :=
    canonicalMemoryIsUnique _ _ (memWrite_wf a _ hwf) hwf fun x _ => by
      rw [memWrite_mem, Memory.read_write]
      split
      · next hx => rw [hx, memRead]
      · rfl
  exact State.eq_of_fields rfl rfl rfl rfl rfl hmem

/-- Settles O26: the power-on memory lists no cell. -/
theorem powerOnIsWellFormed : Obligations.PowerOnIsWellFormed :=
  ⟨State.reset_mem_wf, rfl⟩

/-- A step that answers a next state keeps the canonical form: STORE writes at a byte address, nothing else writes. -/
theorem stepWith_wf {opc : OpcodeMap} {s t : State} (hwf : s.mem.wf = true) (h : stepWith opc s = .next t) :
    t.mem.wf = true := by
  obtain ⟨_, rfl⟩ | ⟨i, _, hexec⟩ := stepWith_next h
  · exact hwf
  · rw [exec_mem hexec]
    split
    · exact Memory.wf_write s.ptr.isLt s.reg1 hwf
    · exact hwf

/-- Settles O27: `step` is `stepWith` at the default opcode bytes. -/
theorem stepKeepsMemoryCanonical : Obligations.StepKeepsMemoryCanonical :=
  ⟨fun _ _ => stepWith_wf, fun _ _ _ => stepWith_wf⟩

/-- The last write of a merge is done last. -/
theorem mergeBytes_concat (s : State) (writes : List (Byte × Byte)) (p : Byte × Byte) :
    mergeBytes s (writes ++ [p]) = memWrite (mergeBytes s writes) p.1 p.2 := by
  simp [mergeBytes]

/-- Settles O30: by induction on the writes from the last one back, which decides if it is at the address. -/
theorem readReturnsLastWrite : Obligations.ReadReturnsLastWrite := by
  intro s writes a
  induction writes using List.reverseRecOn with
  | nil => rfl
  | append_singleton writes p ih =>
    rw [mergeBytes_concat, memRead_memWrite, List.reverse_concat]
    by_cases hp : p.1 = a
    · rw [if_pos hp.symm, List.find?_cons_of_pos (by simpa using hp)]
    · rw [if_neg (Ne.symm hp), ih, List.find?_cons_of_neg (by simpa using hp)]

end Sys2Proof.Machine
end

section
/-! One step: when it faults, what it executes, what a STORE does to the next fetch, and that it depends only on what it
reads (40_execution_cycle.md R81 to R87; 20_memory.md sections 2 and 3). -/

namespace Sys2Proof.Machine

/-- A step has a next state exactly if a RUNNING machine finds an opcode at PC (60_exceptions.md R130). -/
theorem exists_stepWith_next_iff {opc : OpcodeMap} {s : State} :
    (∃ t, stepWith opc s = .next t) ↔ (s.st = .running → ∃ m, opc m = memRead s s.pc) := by
  rcases stepKind_cases opc s with ⟨hs, hk⟩ | ⟨hs, hd, hk⟩ | ⟨m, hs, hd, hk⟩
  · simp [stepWith_haltedNoOp hk, hs]
  · simp [stepWith_invalidOpcode hk, hs, decodeOpcode_eq_none_iff.1 hd]
  · simp only [stepWith_executed hk, exec_total, true_iff]
    exact fun _ => ⟨m, decodeOpcode_some hd⟩

/-- Settles O19: of the three kinds of a step only the invalid opcode faults, and none refuses. -/
theorem faultExactlyOnUnknownOpcode : Obligations.FaultExactlyOnUnknownOpcode := by
  intro opc s
  rcases stepKind_cases opc s with ⟨hs, hk⟩ | ⟨hs, hd, hk⟩ | ⟨m, hs, hd, hk⟩
  · simp [stepWith_haltedNoOp hk, hs]
  · simp [stepWith_invalidOpcode hk, hs, decodeOpcode_eq_none_iff.1 hd, eq_comm]
  · obtain ⟨t, ht⟩ := exec_total (instrOf m (if m.hasOperand then operandByte s else 0)) s
    rw [stepWith_executed hk, ht]
    simp only [reduceCtorEq, false_iff, ne_eq, not_false_eq_true, implies_true, and_true]
    exact fun _ ⟨_, hnone, _⟩ => hnone m (decodeOpcode_some hd)

/-- Settles O20: `stepsWith_halted` for the run, and the parts of the host's move for a `HaltedNoOp`. -/
theorem haltedMachineIsInert : Obligations.HaltedMachineIsInert := by
  intro opc n x hs
  have hk : stepKind opc x.machine = .haltedNoOp := stepKind_halted hs
  refine ⟨stepsWith_halted hs n, stepAccesses_haltedNoOp hk, ?move⟩
  case move =>
    simp [hostMove, stateAfter_of_next (stepWith_haltedNoOp hk), hk, stepTrace, stepUpdates,
      stepAccesses_haltedNoOp hk]

/-- Settles O16: the step executes what the two bytes at PC decode to. -/
theorem stepRunsDecodedInstruction : Obligations.StepRunsDecodedInstruction := by
  intro s
  exact ⟨rfl, fun hs _ _ hdecode => stepWith_executed (stepKind_of_decode hs hdecode)⟩

/-- Every cell reads 0 after power-on (10_state.md R26). -/
@[simp] theorem memRead_reset (a : Byte) : memRead State.reset a = 0 := rfl

/-- Settles O4: the bytes at PC and PC + 1 are 0, and 0 is the opcode byte of the instruction named. -/
theorem emptyMachineRunsByteZero : Obligations.EmptyMachineRunsByteZero := by
  refine ⟨rfl, fun opc hzero => ?fault, fun opc m hopc hm => ?runs⟩
  case fault =>
    have hd : decodeOpcode opc (memRead State.reset State.reset.pc) = none := decodeOpcode_eq_none_iff.2 hzero
    exact stepWith_invalidOpcode (stepKind_invalid rfl hd)
  case runs =>
    have hd : decodeOpcode opc (memRead State.reset State.reset.pc) = some m := by
      rw [memRead_reset, ← hm, decodeOpcode_self hopc]
    have hoperand : (if m.hasOperand then operandByte State.reset else 0) = 0 := ite_self _
    rw [stepWith_executed (stepKind_valid rfl hd), hoperand]

/-- Settles O1: the fields of the power-on state, and a memory that lists no cell. -/
theorem powerOnState : Obligations.PowerOnState :=
  ⟨rfl, rfl, rfl, rfl, rfl, memRead_reset, fun _ _ => ⟨rfl, rfl⟩, rfl, rfl⟩

/-- Settles O24: PC after the STORE is the address stored to, the byte after it is not the one stored to. -/
theorem storeIsSeenByNextFetch : Obligations.StoreIsSeenByNextFetch := by
  intro opc s t hk hptr h
  rw [stepWith_executed hk, exec_store, effectiveAddress_eq] at h
  obtain rfl := Host.Outcome.next.inj h
  set t : State := { memWrite s s.ptr s.reg1 with pc := s.pc + 1 } with ht
  have hpc : t.pc = s.ptr := hptr.symm
  have hrunning : t.st = .running := (stepKind_executed hk).1
  have hread (a : Byte) : memRead t a = if a = s.ptr then s.reg1 else memRead s a := memRead_memWrite s s.ptr s.reg1 a
  have hopcode : memRead t t.pc = s.reg1 := by rw [hread, if_pos hpc]
  have hoperand : operandByte t = memRead s (s.pc + 2) := by
    have hnext : operandAddress t = s.pc + 2 := BitVec.add_assoc ..
    have hother : s.pc + 2 ≠ s.ptr := by rw [hptr]; bv_omega
    rw [operandByte, hnext, hread, if_neg hother]
  refine ⟨hpc, hopcode, fun hd => ?invalid, fun i rest hdecode => ?valid⟩
  case invalid =>
    rw [← hopcode] at hd ⊢
    exact stepWith_invalidOpcode (stepKind_invalid hrunning hd)
  case valid =>
    rw [← hopcode, ← hoperand] at hdecode
    exact stepWith_executed (stepKind_of_decode hrunning hdecode)

end Sys2Proof.Machine
end

section
/-! Noninterference of one step (20_memory.md sections 2 and 3): a state with another memory, but the same bytes in the
cells the step reads, takes the same step. -/

namespace Sys2Proof.Machine

section
variable {opc : OpcodeMap} {s t : State} {i : Instr} {a v : Byte}

/-- An executed step fetches its instruction, then makes the instruction's own accesses (20_memory.md R39). -/
theorem stepAccesses_executed (hk : stepKind opc s = .executed i) :
    stepAccesses opc s = fetchAccesses opc s ++ execAccesses i s := by
  simp [stepAccesses, hk]

/-- The fetch only reads (20_memory.md R39). -/
theorem write_notMem_fetchAccesses : Access.write a v ∉ fetchAccesses opc s := by
  unfold fetchAccesses
  split
  · simp
  · split <;> simp

/-- The one write of an instruction is that of STORE, REG1 at PTR (20_memory.md R39). -/
theorem write_mem_execAccesses_iff : Access.write a v ∈ execAccesses i s ↔ i = .store ∧ a = s.ptr ∧ v = s.reg1 := by
  cases i <;> simp [execAccesses, effectiveAddress_eq]

/-- The one write of a step is that of an executed STORE. -/
theorem write_mem_stepAccesses_iff :
    Access.write a v ∈ stepAccesses opc s ↔ stepKind opc s = .executed .store ∧ a = s.ptr ∧ v = s.reg1 := by
  cases hk : stepKind opc s with
  | haltedNoOp => simp [stepAccesses_haltedNoOp hk]
  | invalidOpcode b op => simp [stepAccesses, hk, write_notMem_fetchAccesses]
  | executed i => simp [stepAccesses_executed hk, write_notMem_fetchAccesses, write_mem_execAccesses_iff]

/-- Everything a step does to a cell: an executed STORE writes the one at PTR (10_state.md section 7). -/
theorem memRead_stepWith (h : stepWith opc s = .next t) (a : Byte) :
    memRead t a = if stepKind opc s = .executed .store ∧ a = s.ptr then s.reg1 else memRead s a := by
  obtain ⟨hk, rfl⟩ | ⟨i, hk, hexec⟩ := stepWith_next h
  · simp [hk]
  · by_cases hi : i = .store
    · simp [hk, hi, memRead, exec_mem hexec, Memory.read_write, BitVec.toNat_inj]
    · simp [hk, hi, memRead, exec_mem hexec]

/-- After a step each cell its access list names as written holds the byte written. -/
theorem memRead_of_write_mem (h : stepWith opc s = .next t) (hw : .write a v ∈ stepAccesses opc s) :
    memRead t a = v := by
  obtain ⟨hk, ha, rfl⟩ := write_mem_stepAccesses_iff.1 hw
  rw [memRead_stepWith h, if_pos ⟨hk, ha⟩]

/-- A step keeps each cell its access list does not name as written. -/
theorem memRead_of_write_notMem (h : stepWith opc s = .next t) (hw : ∀ v, .write a v ∉ stepAccesses opc s) :
    memRead t a = memRead s a := by
  rw [memRead_stepWith h, if_neg]
  exact fun ⟨hk, ha⟩ => hw s.reg1 (write_mem_stepAccesses_iff.2 ⟨hk, ha, rfl⟩)

/-- A RUNNING step reads the opcode byte (40_execution_cycle.md R81). -/
theorem read_pc_mem_stepAccesses (hs : s.st = .running) : .read s.pc ∈ stepAccesses opc s := by
  rcases stepKind_cases opc s with ⟨hhalted, _⟩ | ⟨_, hd, _⟩ | ⟨n, _, hd, hk⟩
  · rw [hs] at hhalted
    cases hhalted
  · simp [stepAccesses_invalid hs hd]
  · cases hn : n.hasOperand <;> simp [stepAccesses_executed hk, fetchAccesses, hd, hn]

/-- A step that executes an instruction with an operand reads the operand byte (40_execution_cycle.md R84). -/
theorem read_operand_mem_stepAccesses (hk : stepKind opc s = .executed i) (hi : i.mnemonic.hasOperand = true) :
    .read (operandAddress s) ∈ stepAccesses opc s := by
  simp [stepAccesses_executed_of_operand hk hi]

/-- Another memory that holds the same byte at PTR, where LOAD reads, makes no difference to an instruction: it leaves
the same registers, and that memory with its own write done. -/
theorem exec_withMem {m : Memory} (h : exec i s = .next t)
    (hload : i = .load → memRead { s with mem := m } s.ptr = memRead s s.ptr) :
    exec i { s with mem := m } =
      .next { t with mem := if i = .store then m.write s.ptr.toNat s.reg1 else m } := by
  cases i with
  | load =>
    rw [exec_load, effectiveAddress_eq] at h ⊢
    obtain rfl := Host.Outcome.next.inj h
    simp [hload rfl]
  | jnz k =>
    rw [exec_jnz] at h ⊢
    obtain rfl := Host.Outcome.next.inj h
    rfl
  | halt | xor | add | store | setPtr | swap | setReg1 k =>
    obtain rfl := Host.Outcome.next.inj h
    rfl

end

/-- The memory `m` has the bytes of `s` in the cells that the step from `s` reads. -/
def AgreesOnReads (opc : OpcodeMap) (s : State) (m : Memory) : Prop :=
  ∀ a, .read a ∈ stepAccesses opc s → memRead { s with mem := m } a = memRead s a

namespace AgreesOnReads

variable {opc : OpcodeMap} {s t : State} {m : Memory}

/-- Both states find the same opcode byte. -/
theorem opcode (hm : AgreesOnReads opc s m) (hs : s.st = .running) :
    memRead { s with mem := m } s.pc = memRead s s.pc :=
  hm s.pc (read_pc_mem_stepAccesses hs)

/-- The step from the other memory makes the same checks with the same result. -/
theorem stepKind_eq (hm : AgreesOnReads opc s m) : stepKind opc { s with mem := m } = stepKind opc s := by
  rcases stepKind_cases opc s with ⟨hs, hk⟩ | ⟨hs, hd, hk⟩ | ⟨n, hs, hd, hk⟩
  · exact (stepKind_halted (s := { s with mem := m }) hs).trans hk.symm
  · rw [← hm.opcode hs] at hd
    rw [stepKind_invalid (s := { s with mem := m }) hs hd, hk, hm.opcode hs]
  · have hd' : decodeOpcode opc (memRead { s with mem := m } s.pc) = some n := by rw [hm.opcode hs, hd]
    rw [stepKind_valid (s := { s with mem := m }) hs hd', hk]
    cases hn : n.hasOperand with
    | false => rfl
    | true =>
      have hoperand : operandByte { s with mem := m } = operandByte s :=
        hm _ (read_operand_mem_stepAccesses hk (by rw [instrOf_mnemonic, hn]))
      rw [if_pos rfl, if_pos rfl, hoperand]

/-- The step from the other memory makes the same accesses: their addresses come from the registers. -/
theorem stepAccesses_eq (hm : AgreesOnReads opc s m) :
    stepAccesses opc { s with mem := m } = stepAccesses opc s := by
  rcases stepKind_cases opc s with ⟨hs, hk⟩ | ⟨hs, hd, hk⟩ | ⟨n, hs, _, hk⟩
  · rw [stepAccesses_haltedNoOp (hm.stepKind_eq.trans hk), stepAccesses_haltedNoOp hk]
  · have hd' := hd
    rw [← hm.opcode hs] at hd'
    rw [stepAccesses_invalid (s := { s with mem := m }) hs hd', stepAccesses_invalid hs hd]
  · have hfetch : fetchAccesses opc { s with mem := m } = fetchAccesses opc s := by
      simp only [fetchAccesses, hm.opcode hs]
      rfl
    rw [stepAccesses_executed (hm.stepKind_eq.trans hk), stepAccesses_executed hk, hfetch]
    cases n <;> rfl

/-- The step from the other memory has a next state too, and it differs in memory only. -/
theorem stepWith_next (hm : AgreesOnReads opc s m) (h : stepWith opc s = .next t) :
    ∃ m', stepWith opc { s with mem := m } = .next { t with mem := m' } := by
  obtain ⟨hk, rfl⟩ | ⟨i, hk, hexec⟩ := Machine.stepWith_next h
  · exact ⟨m, stepWith_haltedNoOp (hm.stepKind_eq.trans hk)⟩
  · have hload : i = .load → memRead { s with mem := m } s.ptr = memRead s s.ptr := by
      rintro rfl
      exact hm s.ptr (by simp [stepAccesses_load hk, effectiveAddress_eq])
    exact ⟨_, (stepWith_executed (hm.stepKind_eq.trans hk)).trans (exec_withMem hexec hload)⟩

/-- Both steps fault alike. -/
theorem stepWith_fault_iff (hm : AgreesOnReads opc s m) (f : Fault) :
    stepWith opc s = .fault f ↔ stepWith opc { s with mem := m } = .fault f := by
  cases hk : stepKind opc s with
  | haltedNoOp => simp [stepWith_haltedNoOp hk, stepWith_haltedNoOp (hm.stepKind_eq.trans hk)]
  | invalidOpcode a op => simp [stepWith_invalidOpcode hk, stepWith_invalidOpcode (hm.stepKind_eq.trans hk)]
  | executed i =>
    obtain ⟨t, ht⟩ := exec_total i s
    obtain ⟨m', hm'⟩ := hm.stepWith_next ((stepWith_executed hk).trans ht)
    simp [stepWith_executed hk, ht, hm']

/-- Both steps have the same trace record: the bytes fetched and the registers after the step agree. -/
theorem stepTrace_eq (hm : AgreesOnReads opc s m) : stepTrace opc { s with mem := m } = stepTrace opc s := by
  cases hk : stepKind opc s with
  | haltedNoOp => simp [stepTrace, hk, hm.stepKind_eq]
  | invalidOpcode a op => simp [stepTrace, hk, hm.stepKind_eq]
  | executed i =>
    have hk' := hm.stepKind_eq.trans hk
    obtain ⟨t, ht⟩ := exec_total i s
    obtain ⟨m', hm'⟩ := hm.stepWith_next ((stepWith_executed hk).trans ht)
    rw [stepTrace_executed hk ht, stepTrace_executed hk' ((stepWith_executed hk').symm.trans hm'),
      hm.opcode (stepKind_executed hk).1]

end AgreesOnReads

/-- Settles O23: the second state is the first with another memory, which agrees on what the step reads; the cells after
each step are told by its access list, which both share. -/
theorem stepDependsOnlyOnWhatItReads : Obligations.StepDependsOnlyOnWhatItReads := by
  intro opc s s' hreg1 hreg2 hptr hpc hst hreads
  obtain ⟨m, rfl⟩ : ∃ m, s' = { s with mem := m } :=
    ⟨s'.mem, State.eq_of_fields hreg1.symm hreg2.symm hptr.symm hpc.symm hst.symm rfl⟩
  have hm : AgreesOnReads opc s m := fun a ha => (hreads a ha).symm
  have haccesses := hm.stepAccesses_eq
  have hupdates : stepUpdates opc { s with mem := m } = stepUpdates opc s := by rw [stepUpdates, haccesses, stepUpdates]
  refine ⟨hm.stepKind_eq, haccesses, hupdates, hm.stepTrace_eq, hm.stepWith_fault_iff, fun t h => ?next⟩
  case next =>
    obtain ⟨m', h'⟩ := hm.stepWith_next h
    refine ⟨_, h', rfl, rfl, rfl, rfl, rfl, fun a v hw => ?written, fun a hw => ?kept⟩
    case written => exact ⟨memRead_of_write_mem h hw, memRead_of_write_mem h' (haccesses ▸ hw)⟩
    case kept => exact ⟨memRead_of_write_notMem h hw, memRead_of_write_notMem h' (haccesses ▸ hw)⟩

end Sys2Proof.Machine
end

section
/-! Runs of any length: what a run can change is changed by one of its steps, and a run is safe exactly if every step of
it finds an opcode (10_state.md R12, section 7; 60_exceptions.md R130). -/

namespace Sys2Proof.Machine

section
variable {opc : OpcodeMap} {s t : State} {n : Nat}

/-- A run of `n + 1` steps that ends in a state is a step and a run of `n` steps. -/
theorem stepsWith_succ_next_iff :
    stepsWith opc (n + 1) s = .next t ↔ ∃ u, stepWith opc s = .next u ∧ stepsWith opc n u = .next t := by
  cases h : stepWith opc s <;> simp [stepsWith, h]

/-- One step before a run makes it one step longer. -/
theorem stepsWith_succ_of_next {u : State} (h : stepWith opc s = .next u) :
    stepsWith opc (n + 1) s = stepsWith opc n u := by
  simp [stepsWith, h]

/-- The state `u` is reached by fewer than `n` steps from `s`, and the run goes on from it with the instruction `i`. -/
def ExecutedWithin (opc : OpcodeMap) (n : Nat) (s u : State) (i : Instr) : Prop :=
  ∃ k, k < n ∧ stepsWith opc k s = .next u ∧ stepKind opc u = .executed i

/-- A part of the state that a run changes is changed by one of its instructions. -/
theorem exists_exec_ne_of_stepsWith {β : Type} (part : State → β) (h : stepsWith opc n s = .next t)
    (hne : part t ≠ part s) : ∃ u v i, ExecutedWithin opc n s u i ∧ exec i u = .next v ∧ part v ≠ part u := by
  induction n generalizing s with
  | zero =>
    obtain rfl := Host.Outcome.next.inj h
    exact absurd rfl hne
  | succ n ih =>
    obtain ⟨s', hstep, hrun⟩ := stepsWith_succ_next_iff.1 h
    by_cases hlater : part t = part s'
    · obtain ⟨_, rfl⟩ | ⟨i, hk, hexec⟩ := stepWith_next hstep
      · exact absurd hlater hne
      · exact ⟨s, s', i, ⟨0, n.succ_pos, rfl, hk⟩, hexec, hlater ▸ hne⟩
    · obtain ⟨u, v, i, ⟨k, hk, hu, hkind⟩, hexec, huv⟩ := ih hrun hlater
      exact ⟨u, v, i, ⟨k + 1, Nat.succ_lt_succ hk, (stepsWith_succ_of_next hstep).trans hu, hkind⟩, hexec, huv⟩

end

/-- HALT is the only instruction that writes `st` (10_state.md R12). -/
theorem eq_halt_of_st_ne {s t : State} {i : Instr} (h : exec i s = .next t) (hst : t.st ≠ s.st) : i = .halt := by
  by_contra hi
  exact hst ((exec_st h).trans (if_neg hi))

/-- A run that changes `st` ends HALTED, since it did not start so. -/
theorem halted_of_stepsWith {opc : OpcodeMap} {n : Nat} {s t : State} (h : stepsWith opc n s = .next t)
    (hst : t.st ≠ s.st) : t.st = .halted := by
  cases hs : s.st with
  | halted =>
    rw [stepsWith_halted hs] at h
    obtain rfl := Host.Outcome.next.inj h
    exact hs
  | running =>
    cases ht : t.st with
    | halted => rfl
    | running => exact absurd (ht.trans hs.symm) hst

/-- Settles O21: one instruction of the run changes the register, and only one instruction can. -/
theorem registersChangeOnlyByTheirInstruction : Obligations.RegistersChangeOnlyByTheirInstruction := by
  intro opc n s t h
  refine ⟨fun hne => ?reg2, fun hne => ?ptr, fun hne => ⟨halted_of_stepsWith h hne, ?st⟩⟩
  case reg2 =>
    obtain ⟨u, v, i, ⟨k, hkn, hu, hk⟩, hexec, huv⟩ := exists_exec_ne_of_stepsWith State.reg2 h hne
    exact ⟨k, u, hkn, hu, eq_swap_of_reg2_ne hexec huv ▸ hk⟩
  case ptr =>
    obtain ⟨u, v, i, ⟨k, hkn, hu, hk⟩, hexec, huv⟩ := exists_exec_ne_of_stepsWith State.ptr h hne
    exact ⟨k, u, hkn, hu, eq_setPtr_of_ptr_ne hexec huv ▸ hk⟩
  case st =>
    obtain ⟨u, v, i, ⟨k, hkn, hu, hk⟩, hexec, huv⟩ := exists_exec_ne_of_stepsWith State.st h hne
    exact ⟨k, u, hkn, hu, eq_halt_of_st_ne hexec huv ▸ hk⟩

/-- STORE at the effective address is the only way an instruction changes a cell (10_state.md section 7). -/
theorem store_of_read_ne {s t : State} {i : Instr} {a : Nat} (h : exec i s = .next t)
    (hread : t.mem.read a ≠ s.mem.read a) : i = .store ∧ (effectiveAddress s).toNat = a := by
  rw [exec_mem h] at hread
  by_cases hi : i = .store
  · rw [if_pos hi, Memory.read_write] at hread
    refine ⟨hi, ?_⟩
    by_contra ha
    exact hread (if_neg (Ne.symm ha))
  · rw [if_neg hi] at hread
    exact absurd rfl hread

/-- Settles O22: one instruction of the run changes the cell, and it is a STORE to it. -/
theorem memoryChangesOnlyByStore : Obligations.MemoryChangesOnlyByStore := by
  intro opc n s t a h hne
  obtain ⟨u, v, i, ⟨k, hkn, hu, hk⟩, hexec, huv⟩ := exists_exec_ne_of_stepsWith (·.mem.read a) h hne
  obtain ⟨rfl, ha⟩ := store_of_read_ne hexec huv
  exact ⟨k, u, hkn, hu, hk, ha⟩

/-- Settles O25: by induction on the length; the first step goes on exactly if it finds an opcode or is no step, and the
states of the run from there are the later ones of the whole run. -/
theorem runIsSafeUnlessUnknownOpcode : Obligations.RunIsSafeUnlessUnknownOpcode := by
  intro opc n
  induction n with
  | zero => exact fun s => ⟨fun _ _ _ hk => absurd hk (Nat.not_lt_zero _), fun _ => ⟨s, rfl⟩⟩
  | succ n ih =>
    intro s
    constructor
    · rintro ⟨t, ht⟩ k u hk hu hrunning
      obtain ⟨s', hstep, hrun⟩ := stepsWith_succ_next_iff.1 ht
      cases k with
      | zero =>
        obtain rfl := Host.Outcome.next.inj hu
        exact exists_stepWith_next_iff.1 ⟨s', hstep⟩ hrunning
      | succ k =>
        rw [stepsWith_succ_of_next hstep] at hu
        exact (ih s').1 ⟨t, hrun⟩ k u (Nat.lt_of_succ_lt_succ hk) hu hrunning
    · intro hopcodes
      obtain ⟨s', hstep⟩ := exists_stepWith_next_iff.2 (hopcodes 0 s n.succ_pos rfl)
      obtain ⟨t, ht⟩ := (ih s').2 fun k u hk hu =>
        hopcodes (k + 1) u (Nat.succ_lt_succ hk) ((stepsWith_succ_of_next hstep).trans hu)
      exact ⟨t, (stepsWith_succ_of_next hstep).trans ht⟩

end Sys2Proof.Machine
end

section
/-! The run loop (60_exceptions.md R145): the ways it can go, as a relation that the loop satisfies, so that a fact
about runs is an induction over that relation; a run is iterated steps, and it tells whether a program halts. -/

namespace Sys2Proof.Machine

/-- What a run with breakpoints `bp` can come back with: one rule for each test of the loop that ends it, and one for an
iteration that executes an instruction (60_exceptions.md R145; decisions D9, D11). -/
inductive Runs (opc : OpcodeMap) (bp : List Byte) : List Bool → State → RunResult → Prop where
  | halted {stops s} (hs : s.st = .halted) : Runs opc bp stops s ⟨.stoppedHalted, s, [], []⟩
  | stillRunning {s} (hs : s.st = .running) : Runs opc bp [] s ⟨.stillRunning, s, [], []⟩
  | stopRequest {stops s} (hs : s.st = .running) : Runs opc bp (true :: stops) s ⟨.stoppedByUser, s, [], []⟩
  | breakpoint {stops s} (hs : s.st = .running) (hb : s.pc ∈ bp) :
      Runs opc bp (false :: stops) s ⟨.stoppedAtBreakpoint, s, [], []⟩
  | failed {stops s a op} (hb : s.pc ∉ bp) (hk : stepKind opc s = .invalidOpcode a op) :
      Runs opc bp (false :: stops) s ⟨.failed a op, s, [], []⟩
  | step {stops s t i r} (hb : s.pc ∉ bp) (hk : stepKind opc s = .executed i) (ht : stepWith opc s = .next t)
      (hr : Runs opc bp stops t r) :
      Runs opc bp (false :: stops) s
        ⟨r.why, r.machine, (stepTrace opc s).toList ++ r.traces, stepUpdates opc s ++ r.updates⟩

section
variable {opc : OpcodeMap} {bp : List Byte} {s t : State}

/-- A step is no step exactly for a HALTED machine (40_execution_cycle.md R82). -/
theorem stepKind_eq_haltedNoOp_iff : stepKind opc s = .haltedNoOp ↔ s.st = .halted := by
  refine ⟨fun h => ?_, stepKind_halted⟩
  rcases stepKind_cases opc s with ⟨hs, _⟩ | ⟨_, _, hk⟩ | ⟨_, _, _, hk⟩
  · exact hs
  · rw [h] at hk; cases hk
  · rw [h] at hk; cases hk

/-- A run whose samples are used up is followed no further (log 15). -/
theorem runLoop_nil (hs : s.st = .running) : runLoop opc bp [] s = ⟨.stillRunning, s, [], []⟩ := by
  simp [runLoop, hs]

/-- The stop request is tested before the breakpoint and the step (decision D9). -/
theorem runLoop_stopRequest (stops : List Bool) (hs : s.st = .running) :
    runLoop opc bp (true :: stops) s = ⟨.stoppedByUser, s, [], []⟩ := by
  simp [runLoop, hs]

/-- A byte that is no opcode aborts the run (60_exceptions.md R132, R145). -/
theorem runLoop_failed {a op : Byte} (stops : List Bool) (hb : s.pc ∉ bp)
    (hk : stepKind opc s = .invalidOpcode a op) :
    runLoop opc bp (false :: stops) s = ⟨.failed a op, s, [], []⟩ := by
  have hs : s.st ≠ .halted := fun h => by rw [stepKind_halted h] at hk; cases hk
  simp [runLoop, hs, hb, hk]

/-- Everything the loop can do. -/
theorem runs_runLoop (opc : OpcodeMap) (bp : List Byte) (stops : List Bool) (s : State) :
    Runs opc bp stops s (runLoop opc bp stops s) := by
  induction stops generalizing s with
  | nil =>
    cases hs : s.st with
    | halted => exact runLoop_halted (opc := opc) (bp := bp) [] hs ▸ .halted hs
    | running => exact runLoop_nil (opc := opc) (bp := bp) hs ▸ .stillRunning hs
  | cons stop stops ih =>
    cases hs : s.st with
    | halted => exact runLoop_halted (opc := opc) (bp := bp) (stop :: stops) hs ▸ .halted hs
    | running =>
      cases stop with
      | true => exact runLoop_stopRequest (opc := opc) (bp := bp) stops hs ▸ .stopRequest hs
      | false =>
        by_cases hb : s.pc ∈ bp
        · exact runLoop_breakpoint (opc := opc) stops hs hb ▸ .breakpoint hs hb
        · cases hk : stepKind opc s with
          | haltedNoOp => exact absurd (stepKind_eq_haltedNoOp_iff.1 hk) (by simp [hs])
          | invalidOpcode a op => exact runLoop_failed stops hb hk ▸ .failed hb hk
          | executed i =>
            obtain ⟨t, ht⟩ := exec_total i s
            have hstep := (stepWith_executed hk).trans ht
            rw [runLoop_step stops hb hk, stateAfter_of_next hstep]
            exact .step hb hk hstep (ih t)

end

/-- Settles O49: by induction on the ways of the loop; an iteration that executes an instruction makes the run one step
longer and has one trace record. -/
theorem runIsIteratedStep : Obligations.RunIsIteratedStep := by
  intro opc bp stops s r
  have hruns : Runs opc bp stops s r := runs_runLoop opc bp stops s
  clear_value r
  induction hruns with
  | halted hs => exact ⟨0, Nat.zero_le _, rfl, rfl, nofun, hs⟩
  | stillRunning hs => exact ⟨0, Nat.zero_le _, rfl, rfl, nofun, hs, rfl⟩
  | stopRequest hs => exact ⟨0, Nat.zero_le _, rfl, rfl, nofun, hs, rfl⟩
  | breakpoint hs hb => exact ⟨0, Nat.zero_le _, rfl, rfl, nofun, hs, hb, rfl⟩
  | failed hb hk =>
    exact ⟨0, Nat.zero_le _, rfl, rfl, nofun, hb, stepWith_invalidOpcode hk⟩
  | @step stops s t i r hb hk ht _ ih =>
    obtain ⟨n, hn, hreach, htraces, hsteps, hreason⟩ := ih
    refine ⟨n + 1, Nat.succ_le_succ hn, (stepsWith_succ_of_next ht).trans hreach, ?traces, fun k hkn => ?steps, ?why⟩
    case traces =>
      rw [stepTrace_executed hk ((stepWith_executed hk).symm.trans ht)]
      simp [htraces]
    case steps =>
      cases k with
      | zero => exact ⟨s, i, rfl, hk, hb, rfl⟩
      | succ k =>
        obtain ⟨u, j, hu, hj⟩ := hsteps k (Nat.lt_of_succ_lt_succ hkn)
        exact ⟨u, j, (stepsWith_succ_of_next ht).trans hu, hj⟩
    case why =>
      obtain ⟨why, machine, traces, updates⟩ := r
      cases why with
      | stoppedHalted | stoppedByUser | stoppedAtBreakpoint | failed a op => exact hreason
      | stillRunning => exact ⟨hreason.1, congrArg Nat.succ hreason.2⟩

/-- A run with `n` samples and nothing to stop it comes back from a program that halts within `n` steps. -/
theorem runLoop_reaches_halt {opc : OpcodeMap} {n : Nat} {s t : State} (h : stepsWith opc n s = .next t)
    (ht : t.st = .halted) :
    (runLoop opc [] (List.replicate n false) s).why = .stoppedHalted ∧
      (runLoop opc [] (List.replicate n false) s).machine = t := by
  induction n generalizing s with
  | zero =>
    obtain rfl := Host.Outcome.next.inj h
    simp [runLoop_halted _ ht]
  | succ n ih =>
    obtain ⟨u, hstep, hrun⟩ := stepsWith_succ_next_iff.1 h
    obtain ⟨hk, _⟩ | ⟨i, hk, _⟩ := stepWith_next hstep
    · have hs : s.st = .halted := stepKind_eq_haltedNoOp_iff.1 hk
      rw [stepsWith_halted hs] at h
      obtain rfl := Host.Outcome.next.inj h
      simp [runLoop_halted _ hs]
    · rw [List.replicate_succ, runLoop_step _ List.not_mem_nil hk, stateAfter_of_next hstep]
      exact ih hrun

/-- Settles O50: a halting program makes the run halt; a run that says HALTED has reached its state by steps. -/
theorem runReachesHalt : Obligations.RunReachesHalt := by
  intro opc s
  refine ⟨fun n t => runLoop_reaches_halt, fun ⟨n, t, h, ht⟩ => ⟨n, (runLoop_reaches_halt h ht).1⟩, ?steps⟩
  case steps =>
    rintro ⟨n, hwhy⟩
    obtain ⟨k, _, hreach, _, _, hreason⟩ := runIsIteratedStep opc [] (List.replicate n false) s
    rw [hwhy] at hreason
    exact ⟨k, _, hreach, hreason⟩

end Sys2Proof.Machine
end

section
/-! The host's moves (60_exceptions.md R139 to R157): what each can make of a session, as a relation that every move
satisfies; the session's invariant, the replay of the display, rejection and HALTED are read off it. -/

namespace Sys2Proof.Machine

/-- What a move of the host can be: rejected, a reading, one of the commands of the host's own state, a step, a run, a
register or memory written, or a reset. -/
inductive HostMoves (opc : OpcodeMap) (x : Session) : HostOp → Move → Prop where
  | rejected {op} (e : HostError) (hop : op ≠ .reset) : HostMoves opc x op (rejectMove x e)
  | reading {op} (r : Reply) (hop : op ≠ .reset) (hr : ∀ e, r ≠ .rejected e) : HostMoves opc x op (readMove x r)
  | breakpointAdded {op} (b : Byte) (hop : op ≠ .reset) :
      HostMoves opc x op ⟨{ x with breakpoints := insertBreakpoint b x.breakpoints }, .done, [], []⟩
  | breakpointRemoved {op} (b : Byte) (hop : op ≠ .reset) :
      HostMoves opc x op ⟨{ x with breakpoints := removeBreakpoint b x.breakpoints }, .done, [], []⟩
  | clockSet {op} (rate : Int) (hop : op ≠ .reset) (hrate : 0 < rate) :
      HostMoves opc x op ⟨{ x with clockRate := some rate }, .done, [], []⟩
  | stepped : HostMoves opc x .step
      ⟨{ x with machine := stateAfter opc x.machine }, .stepped (stepKind opc x.machine),
        (stepTrace opc x.machine).toList, stepUpdates opc x.machine⟩
  | ran {stops r} (hr : Runs opc x.breakpoints stops x.machine r) :
      HostMoves opc x (.run stops) ⟨{ x with machine := r.machine }, .ran r.why, r.traces, r.updates⟩
  | registerWritten {op} (r : RegName) (v : Byte) (hop : op ≠ .reset) :
      HostMoves opc x op (machineMove x (writeReg x.machine r v) [])
  | merged {op} (bytes : List (Byte × Byte)) (hop : op ≠ .reset) :
      HostMoves opc x op (machineMove x (mergeBytes x.machine bytes) (mergeUpdates bytes))
  | reset : HostMoves opc x .reset (machineMove x (bootReset x.machine) [])

/-- Everything an edit can do to the machine: one register written, or one cell with its display events
(60_exceptions.md R147). -/
theorem editMachine_ok {target : EditTarget} {value : Int} {s t : State} {updates : List DisplayUpdate}
    (h : editMachine target value s = .ok (t, updates)) :
    (∃ r v, t = writeReg s r v ∧ updates = []) ∨ ∃ a v, t = memWrite s a v ∧ updates = displayUpdates a v := by
  cases target with
  | register name =>
    simp only [editMachine] at h
    split at h
    · cases h
    · cases h
    · next r v _ _ =>
      cases h
      exact Or.inl ⟨r, v, rfl, rfl⟩
  | memory a =>
    simp only [editMachine] at h
    split at h
    · cases h
    · cases h
    · next b v _ _ =>
      cases h
      exact Or.inr ⟨b, v, rfl, rfl⟩

/-- A merge of one byte is one `MemWrite`, with its events. -/
@[simp] theorem mergeUpdates_singleton (a v : Byte) : mergeUpdates [(a, v)] = displayUpdates a v := by
  simp [mergeUpdates]

/-- Everything a move of the host can do. -/
theorem hostMoves_hostMove (opc : OpcodeMap) (op : HostOp) (x : Session) : HostMoves opc x op (hostMove opc op x) := by
  cases op with
  | step => exact .stepped
  | run stops => exact .ran (runs_runLoop ..)
  | addbp a =>
    simp only [hostMove]
    split
    · exact .rejected _ nofun
    · exact .breakpointAdded _ nofun
  | delbp a =>
    simp only [hostMove]
    split
    · exact .rejected _ nofun
    · exact .breakpointRemoved _ nofun
  | edit target value =>
    simp only [hostMove]
    split
    · exact .rejected _ nofun
    · next hedit =>
      obtain ⟨r, v, rfl, rfl⟩ | ⟨a, v, rfl, rfl⟩ := editMachine_ok hedit
      · exact .registerWritten r v nofun
      · exact mergeUpdates_singleton a v ▸ .merged [(a, v)] nofun
  | program lines =>
    simp only [hostMove]
    split
    · exact .rejected _ nofun
    · exact .merged _ nofun
  | reset => exact .reset
  | clock rate =>
    simp only [hostMove]
    split
    · exact .clockSet _ nofun ‹_›
    · exact .rejected _ nofun
  | load bytes =>
    simp only [hostMove]
    split
    · exact .merged _ nofun
    · exact .rejected _ nofun
  | save hi =>
    simp only [hostMove]
    split
    · exact .rejected _ nofun
    · exact .reading _ nofun nofun
  | readDisplay => exact .reading _ nofun nofun
  | readRegister r => exact .reading _ nofun nofun
  | readMemory a =>
    simp only [hostMove]
    split
    · exact .rejected _ nofun
    · exact .reading _ nofun nofun
  | readExecState => exact .reading _ nofun nofun

/-! ### Rejection, HALTED -/

section
variable {opc : OpcodeMap} {x : Session} {op : HostOp} {m : Move}

/-- A rejected move is nothing but its reply (60_exceptions.md R139). -/
theorem HostMoves.eq_rejectMove {e : HostError} (h : HostMoves opc x op m) (hm : m.reply = .rejected e) :
    m = rejectMove x e := by
  cases h with
  | rejected e' =>
    obtain rfl : e' = e := Reply.rejected.inj hm
    rfl
  | reading r _ hr => exact absurd hm (hr e)
  | breakpointAdded | breakpointRemoved | clockSet | stepped | ran | registerWritten | merged | reset => cases hm

/-- A step leaves a HALTED machine as it is (40_execution_cycle.md R82). -/
theorem stateAfter_halted {s : State} (hs : s.st = .halted) : stateAfter opc s = s :=
  stateAfter_of_next (stepWith_haltedNoOp (stepKind_halted hs))

/-- A run of a HALTED machine ends before its first step (60_exceptions.md R145). -/
theorem Runs.eq_of_halted {bp : List Byte} {stops : List Bool} {s : State} {r : RunResult}
    (h : Runs opc bp stops s r) (hs : s.st = .halted) : r.machine = s := by
  cases h with
  | halted | stillRunning | stopRequest | breakpoint | failed => rfl
  | step _ hk => exact absurd (hs.symm.trans (stepKind_executed hk).1) nofun

/-- Of all moves only reset writes `st` of a HALTED machine (decision D18). -/
theorem HostMoves.st_halted (h : HostMoves opc x op m) (hop : op ≠ .reset) (hs : x.machine.st = .halted) :
    m.session.machine.st = .halted := by
  cases h with
  | rejected | reading | breakpointAdded | breakpointRemoved | clockSet => exact hs
  | stepped => exact (congrArg State.st (stateAfter_halted hs)).trans hs
  | ran hr => exact (congrArg State.st (hr.eq_of_halted hs)).trans hs
  | registerWritten r v => exact (writeReg_st ..).trans hs
  | merged bytes => exact (congrArg State.st (mergeBytes_frame ..)).trans hs
  | reset => exact absurd rfl hop

end

/-- Settles O51: reset makes the machine RUNNING, any other move leaves it HALTED. -/
theorem onlyResetLeavesHalted : Obligations.OnlyResetLeavesHalted := by
  intro opc op x hs
  constructor
  · intro hrunning
    by_contra hop
    rw [(hostMoves_hostMove opc op x).st_halted hop hs] at hrunning
    cases hrunning
  · rintro rfl
    rfl

/-! ### The session's invariant -/

/-- The parts of the session's invariant. -/
theorem Session.wf_iff {x : Session} :
    x.wf = true ↔
      x.machine.mem.wf = true ∧ breakpointsRise x.breakpoints = true ∧ ∀ r, x.clockRate = some r → 0 < r := by
  simp [Session.wf, and_assoc, Option.all_eq_true]

/-- The form of the breakpoint set compares every two of its addresses, not just neighbours. -/
theorem breakpointsRise_iff_pairwise {bp : List Byte} :
    breakpointsRise bp = true ↔ bp.Pairwise fun a b => a.toNat < b.toNat := by
  have hchain : breakpointsRise bp = true ↔ (bp.map BitVec.toNat).IsChain (· < ·) := by
    induction bp with
    | nil => simp [breakpointsRise]
    | cons a rest ih =>
      cases rest with
      | nil => simp [breakpointsRise]
      | cons b rest => simp [breakpointsRise, ih]
  rw [hchain, List.isChain_iff_pairwise, List.pairwise_map]

/-- An insertion puts the address where it belongs. -/
theorem insertBreakpoint_rise (a : Byte) {bp : List Byte} (h : breakpointsRise bp = true) :
    breakpointsRise (insertBreakpoint a bp) = true := by
  rw [breakpointsRise_iff_pairwise] at h ⊢
  induction bp with
  | nil => exact List.pairwise_singleton _ _
  | cons b rest ih =>
    obtain ⟨hb, hrest⟩ := List.pairwise_cons.1 h
    unfold insertBreakpoint
    split
    · exact h
    · next hne =>
      split
      · next hlt => exact List.pairwise_cons.2 ⟨List.forall_mem_cons.2 ⟨hlt, fun c hc => hlt.trans (hb c hc)⟩, h⟩
      · next hle =>
        have hba : b.toNat < a.toNat := by have := BitVec.toNat_ne.1 hne; omega
        refine List.pairwise_cons.2 ⟨fun c hc => ?_, ih hrest⟩
        obtain rfl | hc := (mem_insertBreakpoint a c rest).1 hc
        · exact hba
        · exact hb c hc

/-- A removal leaves the order of the others. -/
theorem removeBreakpoint_rise (a : Byte) {bp : List Byte} (h : breakpointsRise bp = true) :
    breakpointsRise (removeBreakpoint a bp) = true := by
  rw [breakpointsRise_iff_pairwise] at h ⊢
  exact h.filter _

section
variable {opc : OpcodeMap} {s : State}

/-- Also a step that fails keeps the canonical form: it leaves the state it found. -/
theorem stateAfter_wf (h : s.mem.wf = true) : (stateAfter opc s).mem.wf = true := by
  obtain hnext | ⟨_, hsame⟩ := stateAfter_cases opc s
  · exact stepWith_wf h hnext
  · rw [hsame]; exact h

/-- A run keeps the canonical form, since each of its steps does. -/
theorem Runs.wf {bp : List Byte} {stops : List Bool} {r : RunResult} (h : Runs opc bp stops s r)
    (hs : s.mem.wf = true) : r.machine.mem.wf = true := by
  induction h with
  | halted | stillRunning | stopRequest | breakpoint | failed => exact hs
  | step _ _ ht _ ih => exact ih (stepWith_wf hs ht)

end

/-- Settles O54: what a move changes of the session keeps its part of the invariant. -/
theorem hostMovesKeepSessionInvariant : Obligations.HostMovesKeepSessionInvariant := by
  intro opc op x hwf
  obtain ⟨hmem, hbreak, hrate⟩ := Session.wf_iff.1 hwf
  refine Session.wf_iff.2 ?_
  generalize hm : hostMove opc op x = m
  have hmoves : HostMoves opc x op m := hm ▸ hostMoves_hostMove opc op x
  cases hmoves with
  | rejected | reading => exact ⟨hmem, hbreak, hrate⟩
  | breakpointAdded b => exact ⟨hmem, insertBreakpoint_rise b hbreak, hrate⟩
  | breakpointRemoved b => exact ⟨hmem, removeBreakpoint_rise b hbreak, hrate⟩
  | clockSet rate _ hpos => exact ⟨hmem, hbreak, fun r hr => Option.some.inj hr ▸ hpos⟩
  | stepped => exact ⟨stateAfter_wf hmem, hbreak, hrate⟩
  | ran hr => exact ⟨hr.wf hmem, hbreak, hrate⟩
  | registerWritten r v => exact ⟨(writeReg_mem x.machine r v).symm ▸ hmem, hbreak, hrate⟩
  | merged bytes => exact ⟨mergeBytes_wf bytes hmem, hbreak, hrate⟩
  | reset => exact ⟨hmem, hbreak, hrate⟩

/-! ### The display follows its events -/

/-- A write into the display-mapped region changes one slot of the display (20_memory.md R32). -/
theorem display_memWrite_of_le (s : State) {a : Byte} (v : Byte) (ha : Config.dispBase ≤ a.toNat) :
    display (memWrite s a v) = (display s).set (a.toNat - Config.dispBase) v := by
  refine List.ext_getElem (by simp [display_length]) fun i _ _ => ?_
  have hslot : Config.dispBase + i = a.toNat ↔ a.toNat - Config.dispBase = i := by omega
  simp [display, List.getElem_set, displaySlot_memWrite, hslot]

/-- Replaying these events takes the display of `s` to the display of `t` (20_memory.md R32, R47). -/
def Replays (s : State) (updates : List DisplayUpdate) (t : State) : Prop :=
  updates.foldl showUpdate (display s) = display t

/-- A step that executes no STORE only reads, so it emits no event (20_memory.md R31, R32). -/
theorem stepUpdates_of_not_store {opc : OpcodeMap} {s : State} (hk : stepKind opc s ≠ .executed .store) :
    stepUpdates opc s = [] := by
  refine List.flatMap_eq_nil_iff.2 fun access haccess => ?_
  cases access with
  | read a => rfl
  | write a v => exact absurd (write_mem_stepAccesses_iff.1 haccess).1 hk

namespace Replays

variable {opc : OpcodeMap} {s t u : State} {updates more : List DisplayUpdate}

/-- No event is needed where memory stays: the display is a function of it (10_state.md R21). -/
theorem of_mem_eq (h : t.mem = s.mem) : Replays s [] t :=
  (display_congr h).symm

theorem trans (h : Replays s updates t) (h' : Replays t more u) : Replays s (updates ++ more) u := by
  unfold Replays at *
  rw [List.foldl_append, h, h']

/-- The events of a `MemWrite` show what it changes: nothing below 240, else one slot (20_memory.md R32). -/
theorem memWrite (s : State) (a v : Byte) : Replays s (displayUpdates a v) (memWrite s a v) := by
  unfold Replays displayUpdates
  by_cases ha : Config.dispBase ≤ a.toNat
  · simp only [if_pos ha, List.foldl_cons, List.foldl_nil, showUpdate, display_memWrite_of_le s v ha]
  · simp only [if_neg ha, List.foldl_nil, display_memWrite_of_lt s v (not_le.1 ha)]

/-- A merge is its writes one after the other, and so are its events (20_memory.md R33). -/
theorem mergeBytes (s : State) (bytes : List (Byte × Byte)) :
    Replays s (mergeUpdates bytes) (mergeBytes s bytes) := by
  induction bytes generalizing s with
  | nil => exact of_mem_eq rfl
  | cons p rest ih => exact (memWrite s p.1 p.2).trans (ih _)

/-- The event of a step that goes on is that of its STORE, if it is one. -/
theorem stepWith (h : stepWith opc s = .next t) : Replays s (stepUpdates opc s) t := by
  by_cases hk : stepKind opc s = .executed .store
  · rw [stepWith_executed hk, exec_store] at h
    obtain rfl := Host.Outcome.next.inj h
    rw [stepUpdates_store hk]
    exact memWrite s (effectiveAddress s) s.reg1
  · rw [stepUpdates_of_not_store hk]
    refine of_mem_eq ?_
    obtain ⟨_, rfl⟩ | ⟨i, hi, hexec⟩ := stepWith_next h
    · rfl
    · rw [exec_mem hexec, if_neg]
      rintro rfl
      exact hk hi

/-- A step that fails emits nothing and changes nothing. -/
theorem stateAfter (opc : OpcodeMap) (s : State) : Replays s (stepUpdates opc s) (stateAfter opc s) := by
  obtain hnext | ⟨⟨a, op, hk⟩, hsame⟩ := stateAfter_cases opc s
  · exact stepWith hnext
  · rw [hsame, stepUpdates_of_not_store (by simp [hk])]
    exact of_mem_eq rfl

/-- The events of a run are those of its steps. -/
theorem runs {bp : List Byte} {stops : List Bool} {r : RunResult} (h : Runs opc bp stops s r) :
    Replays s r.updates r.machine := by
  induction h with
  | halted | stillRunning | stopRequest | breakpoint | failed => exact of_mem_eq rfl
  | step _ _ ht _ ih => exact (stepWith ht).trans ih

end Replays

/-- Settles O32: the moves that write memory are steps, runs and merges, whose events replay the display; the others
keep memory and emit nothing. -/
theorem displayEventsReplayDisplay : Obligations.DisplayEventsReplayDisplay := by
  intro opc op x m
  have hmoves : HostMoves opc x op m := hostMoves_hostMove opc op x
  change Replays x.machine m.updates m.session.machine
  clear_value m
  cases hmoves with
  | rejected | reading | breakpointAdded | breakpointRemoved | clockSet | reset => exact .of_mem_eq rfl
  | stepped => exact .stateAfter opc x.machine
  | ran hr => exact .runs hr
  | registerWritten r v => exact .of_mem_eq (writeReg_mem ..)
  | merged bytes => exact .mergeBytes x.machine bytes

end Sys2Proof.Machine
end

section
/-! The host's commands one by one (60_exceptions.md R139 to R153; 70_reset_and_hazards.md R165): an equation for each
command that is carried out, the rejections, and what a merge leaves in memory. -/

namespace Sys2Proof.Machine

section
variable {opc : OpcodeMap} {x : Session} {name : Text} {r : RegName} {value : Int} {v : Byte}

/-- An integer that fits 8 bits is a byte from the host (20_memory.md R34). -/
theorem exists_hostByte {n : Int} (h0 : 0 ≤ n) (h1 : n ≤ 255) : ∃ b, hostByte n = some b :=
  Option.ne_none_iff_exists'.1 fun hnone => hostByte_none.1 hnone ⟨h0, h1⟩

/-- An edit of a register that is carried out (60_exceptions.md R147). -/
theorem hostMove_edit_register (hr : registerOf name = some r) (hv : hostByte value = some v) :
    hostMove opc (.edit (.register name) value) x = machineMove x (writeReg x.machine r v) [] := by
  simp [hostMove, editMachine, hr, hv]

/-- An edit of a cell that is carried out is a `MemWrite` with its events (60_exceptions.md R147; decision D3). -/
theorem hostMove_edit_memory {a : Int} {b : Byte} (ha : hostByte a = some b) (hv : hostByte value = some v) :
    hostMove opc (.edit (.memory a) value) x = machineMove x (memWrite x.machine b v) (displayUpdates b v) := by
  simp [hostMove, editMachine, ha, hv]

/-- A text that assembles is merged (60_exceptions.md R148). -/
theorem hostMove_program_ok {lines : List Text} {bytes : List (Byte × Byte)} (h : assemble opc lines = .ok bytes) :
    hostMove opc (.program lines) x = machineMove x (mergeBytes x.machine bytes) (mergeUpdates bytes) := by
  simp [hostMove, h]

/-- An image that fits is merged from address 0 on (70_reset_and_hazards.md R165). -/
theorem hostMove_load {bytes : List Byte} (h : bytes.length ≤ 256) :
    hostMove opc (.load bytes) x =
      machineMove x (mergeBytes x.machine (placeBytes 0 bytes)) (mergeUpdates (placeBytes 0 bytes)) :=
  if_pos h

/-- A save up to a byte address only reads (60_exceptions.md R153). -/
theorem hostMove_save {hi : Int} {b : Byte} (h : hostByte hi = some b) :
    hostMove opc (.save hi) x = readMove x (.bytes (savedBytes x.machine b)) := by
  simp [hostMove, h]

end

/-! ### Registers, breakpoints, rejections -/

/-- Settles O3: boot depends on memory only, which it keeps. -/
theorem resetIsIdempotent : Obligations.ResetIsIdempotent := by
  intro opc x once
  exact ⟨rfl, rfl, rfl, rfl⟩

/-- Settles O44: every byte is a value and an address from the host, so both edits are carried out. -/
theorem editOverwritesOneTarget : Obligations.EditOverwritesOneTarget := by
  intro opc x v
  refine ⟨fun name r hr => ⟨hostMove_edit_register hr (hostByte_toNat v),
    fun q => readReg_writeReg _ r q v, writeReg_mem .., writeReg_st ..⟩, fun a => ?memory⟩
  case memory =>
    intro m
    have hm : m = machineMove x (memWrite x.machine a v) (displayUpdates a v) :=
      hostMove_edit_memory (hostByte_toNat a) (hostByte_toNat v)
    rw [hm]
    exact ⟨rfl, Memory.read_write _ _ _⟩

/-- Settles O52: membership after an insertion and a removal; the breakpoint just inserted stops the run. -/
theorem breakpointSetOperations : Obligations.BreakpointSetOperations := by
  intro opc x a
  have hadd : hostMove opc (.addbp a.toNat) x =
      ⟨{ x with breakpoints := insertBreakpoint a x.breakpoints }, .done, [], []⟩ := by simp [hostMove]
  have hdel : hostMove opc (.delbp a.toNat) x =
      ⟨{ x with breakpoints := removeBreakpoint a x.breakpoints }, .done, [], []⟩ := by simp [hostMove]
  rw [hadd, hdel]
  refine ⟨⟨rfl, rfl⟩, fun b => mem_insertBreakpoint a b _, fun b => mem_removeBreakpoint a b _,
    fun stops hs hpc => ?run⟩
  case run =>
    have hb : x.machine.pc ∈ insertBreakpoint a x.breakpoints := (mem_insertBreakpoint ..).2 (Or.inl hpc)
    simp [hostMove, runLoop_breakpoint stops hs hb]

/-- Settles O43: a rejection is nothing but its reply by `HostMoves`; each row of the table is the test it names. -/
theorem rejectedMovesChangeNothing : Obligations.RejectedMovesChangeNothing := by
  intro opc x
  refine ⟨fun op e => (hostMoves_hostMove opc op x).eq_rejectMove, fun a v ha hv0 hv1 => ?address,
    fun name v hname hv0 hv1 => ?target, fun name a v hv hname ha0 ha1 => ?range, fun lines e h => ?program,
    fun name ops hname _ => lineInstr_unknownMnemonic ops hname,
    fun m _ hlength _ => lineInstr_operandArityError m hlength,
    fun _ _ _ hm ht hn => lineInstr_operandRangeError hm ht hn, fun at_ a line hline ha => ?label,
    fun at_ line name ops i hline hi hsize => ?emission, fun bytes hbytes => ?load, fun rate hrate => ?clock⟩
  case address =>
    have hnone : hostByte a = none := hostByte_none.2 ha
    refine ⟨?_, ?_, ?_, ?_, ?_⟩ <;> simp [hostMove, editMachine, hnone, rejectMove]
  case target => simp [hostMove, editMachine, hname, rejectMove]
  case range =>
    have hnone : hostByte v = none := hostByte_none.2 hv
    obtain ⟨r, hr⟩ := Option.ne_none_iff_exists'.1 hname
    obtain ⟨b, hb⟩ := exists_hostByte ha0 ha1
    constructor
    · simp [hostMove, editMachine, hnone, hr, rejectMove]
    · simp [hostMove, editMachine, hnone, hb, rejectMove]
  case program => rw [hostMove_program_error x h]
  case label => rw [assembleFrom_label hline, if_neg (Nat.not_lt.2 ha)]
  case emission => rw [assembleFrom_instr hline hi, if_neg (Nat.not_le.2 hsize)]
  case load => simp [hostMove, Nat.not_le.2 hbytes, rejectMove]
  case clock => simp [hostMove, not_lt.2 hrate, rejectMove]

/-! ### What a merge leaves in memory -/

section
variable {s : State} {bytes : List (Byte × Byte)}

/-- A merge that names no address twice leaves each byte it names (60_exceptions.md R148). -/
theorem memRead_mergeBytes_of_mem (hnodup : (bytes.map Prod.fst).Nodup) {p : Byte × Byte} (hp : p ∈ bytes) :
    memRead (mergeBytes s bytes) p.1 = p.2 := by
  induction bytes generalizing s with
  | nil => cases hp
  | cons q rest ih =>
    rw [List.map_cons, List.nodup_cons] at hnodup
    obtain ⟨hq, hrest⟩ := hnodup
    rw [mergeBytes_cons]
    obtain rfl | hp := List.mem_cons.1 hp
    · rw [memRead, mergeBytes_read_other, ← memRead, memRead_memWrite, if_pos rfl]
      exact fun q' hq' heq => hq (BitVec.eq_of_toNat_eq heq ▸ List.mem_map_of_mem hq')
    · exact ih hrest hp

/-- A cell the merge does not name keeps its byte (60_exceptions.md R148). -/
theorem memRead_mergeBytes_of_notMem {a : Byte} (h : ∀ p ∈ bytes, p.1 ≠ a) :
    memRead (mergeBytes s bytes) a = memRead s a :=
  mergeBytes_read_other s bytes a.toNat fun p hp heq => h p hp (BitVec.eq_of_toNat_eq heq)

/-- The slot of a display-mapped address shows its byte (10_state.md R21). -/
theorem displaySlot_sub {a : Byte} (ha : Config.dispBase ≤ a.toNat) :
    displaySlot s (a.toNat - Config.dispBase) = memRead s a := by
  rw [displaySlot, memRead, Nat.add_sub_cancel' ha]

end

/-- The assembler's result lists only bytes that were emitted. -/
theorem lastForEach_subset : ∀ emitted : List (Byte × Byte), lastForEach emitted ⊆ emitted
  | [] => List.Subset.refl _
  | p :: rest => by
    unfold lastForEach
    split
    · exact List.subset_cons_of_subset p (lastForEach_subset rest)
    · exact List.cons_subset_cons p (lastForEach_subset rest)

/-- The assembler's result is a map: it names no address twice (30_encoding.md R60). -/
theorem lastForEach_nodup : ∀ emitted : List (Byte × Byte), ((lastForEach emitted).map Prod.fst).Nodup
  | [] => List.nodup_nil
  | p :: rest => by
    unfold lastForEach
    split
    · exact lastForEach_nodup rest
    · next hp =>
      refine List.nodup_cons.2 ⟨fun hmem => ?_, lastForEach_nodup rest⟩
      obtain ⟨q, hq, hqp⟩ := List.mem_map.1 hmem
      exact hp (List.any_eq_true.2 ⟨q, lastForEach_subset rest hq, beq_iff_eq.2 hqp⟩)

/-- What `assemble` answers names no address twice (30_encoding.md R60). -/
theorem assemble_nodup {opc : OpcodeMap} {lines : List Text} {bytes : List (Byte × Byte)}
    (h : assemble opc lines = .ok bytes) : (bytes.map Prod.fst).Nodup := by
  unfold assemble at h
  split at h
  · cases h
  · cases h
    exact lastForEach_nodup _

/-- Settles O45: a merge of a map leaves its bytes, and `mergeBytes_frame` the rest. -/
theorem programMergesOnlyTheMap : Obligations.ProgramMergesOnlyTheMap := by
  intro opc lines x m
  cases h : assemble opc lines with
  | error e => exact hostMove_program_error x h
  | ok bytes =>
    have hm : m = machineMove x (mergeBytes x.machine bytes) (mergeUpdates bytes) := hostMove_program_ok h
    have hread (p : Byte × Byte) (hp : p ∈ bytes) : memRead (mergeBytes x.machine bytes) p.1 = p.2 :=
      memRead_mergeBytes_of_mem (assemble_nodup h) hp
    rw [hm]
    refine ⟨?frame, hread, fun p hp hp240 => (displaySlot_sub hp240).trans (hread p hp),
      fun a => memRead_mergeBytes_of_notMem⟩
    case frame =>
      rw [machineMove, ← mergeBytes_frame]

/-! ### Images -/

/-- Everything a merge of consecutive bytes does to a read: byte `j` is at address `lo + j`, all else is as before
(70_reset_and_hazards.md R165). -/
theorem read_mergeBytes_placeBytes {lo : Nat} {bytes : List Byte} (hfits : lo + bytes.length ≤ 256) (s : State)
    (a : Nat) :
    (mergeBytes s (placeBytes lo bytes)).mem.read a =
      if lo ≤ a then bytes[a - lo]?.getD (s.mem.read a) else s.mem.read a := by
  induction bytes generalizing lo s with
  | nil => simp [placeBytes, mergeBytes_nil]
  | cons b rest ih =>
    rw [List.length_cons] at hfits
    have hlo : (BitVec.ofNat 8 lo).toNat = lo := by rw [BitVec.toNat_ofNat]; omega
    rw [placeBytes, mergeBytes_cons, ih (by omega), memWrite_mem, Memory.read_write, hlo]
    obtain hlt | rfl | hgt := Nat.lt_trichotomy a lo
    · simp [Nat.not_le.2 hlt, Nat.not_le.2 (hlt.trans lo.lt_succ_self), hlt.ne]
    · simp
    · obtain ⟨j, rfl⟩ := Nat.exists_eq_add_of_lt hgt
      have hj : lo + j + 1 - lo = j + 1 := by omega
      have hj' : lo + j + 1 - (lo + 1) = j := by omega
      simp [hj, hj', show lo ≤ lo + j + 1 by omega, show lo + j + 1 ≠ lo by omega]

/-- Each byte of an image from address 0 is at its index. -/
theorem read_mergeBytes_of_getElem? {bytes : List Byte} (hfits : bytes.length ≤ 256) (s : State) {i : Nat} {b : Byte}
    (hb : bytes[i]? = some b) : (mergeBytes s (placeBytes 0 bytes)).mem.read i = b := by
  rw [read_mergeBytes_placeBytes (by omega), if_pos i.zero_le, Nat.sub_zero, hb, Option.getD_some]

/-- Settles O46: `read_mergeBytes_placeBytes` from address 0, and `mergeBytes_frame`. -/
theorem loadPlacesBytesFromZero : Obligations.LoadPlacesBytesFromZero := by
  intro opc bytes x hfits m
  have hm : m = machineMove x (mergeBytes x.machine (placeBytes 0 bytes)) (mergeUpdates (placeBytes 0 bytes)) :=
    hostMove_load hfits
  rw [hm]
  refine ⟨rfl, ?frame, fun i b => read_mergeBytes_of_getElem? hfits _, fun i hi => ?above⟩
  case frame =>
    rw [machineMove, ← mergeBytes_frame]
  case above =>
    refine (read_mergeBytes_placeBytes (by omega) _ _).trans ?_
    rw [Nat.sub_zero, List.getElem?_eq_none hi]
    exact ite_self _

/-- The bytes saved are those of memory, as many as there are addresses up to the given one (60_exceptions.md R153). -/
theorem savedBytes_length (s : State) (hi : Byte) : (savedBytes s hi).length = hi.toNat + 1 := by
  simp [savedBytes]

theorem savedBytes_getElem? (s : State) {hi : Byte} {i : Nat} (h : i ≤ hi.toNat) :
    (savedBytes s hi)[i]? = some (s.mem.read i) := by
  rw [savedBytes, List.getElem?_map, List.getElem?_range (Nat.lt_succ_of_le h), Option.map_some]

section
variable {bytes : List Byte}

/-- The last address of an image is a byte. -/
theorem toNat_lastAddress (hfits : bytes.length ≤ 256) :
    (BitVec.ofNat 8 (bytes.length - 1)).toNat = bytes.length - 1 := by
  rw [BitVec.toNat_ofNat]
  omega

/-- A save up to its last address gives an image back if memory holds it from address 0 on. -/
theorem savedBytes_eq_image {s : State} (hne : bytes ≠ []) (hfits : bytes.length ≤ 256)
    (himage : ∀ i b, bytes[i]? = some b → s.mem.read i = b) :
    savedBytes s (BitVec.ofNat 8 (bytes.length - 1)) = bytes := by
  have hpos : 0 < bytes.length := List.length_pos_of_ne_nil hne
  have hlength : (savedBytes s (BitVec.ofNat 8 (bytes.length - 1))).length = bytes.length := by
    rw [savedBytes_length, toNat_lastAddress hfits]
    omega
  refine List.ext_getElem hlength fun i _ hi => ?_
  refine Option.some.inj ?_
  rw [← List.getElem?_eq_getElem, savedBytes_getElem? s (by rw [toNat_lastAddress hfits]; omega),
    himage i _ (List.getElem?_eq_getElem hi)]

end

/-- Settles O47: a save reads memory, which after the load holds the image. -/
theorem saveReturnsMemoryAndLoadedImage : Obligations.SaveReturnsMemoryAndLoadedImage := by
  intro opc x
  refine ⟨fun hi => ⟨savedBytes x.machine hi, hostMove_save (hostByte_toNat hi), savedBytes_length _ _,
    fun i => savedBytes_getElem? _⟩, fun bytes hne hfits => ?loaded⟩
  case loaded =>
    have hlast : hostByte (bytes.length - 1 : Nat) = some (BitVec.ofNat 8 (bytes.length - 1)) := by
      rw [← toNat_lastAddress hfits, hostByte_toNat, toNat_lastAddress hfits]
    rw [hostMove_save hlast, hostMove_load hfits]
    exact congrArg Reply.bytes (savedBytes_eq_image hne hfits fun i b => read_mergeBytes_of_getElem? hfits _)

/-- Settles O48: a cell of the image that the run changed would be one that the run stored to. -/
theorem loadedImageSurvivesRun : Obligations.LoadedImageSurvivesRun := by
  intro opc bytes x n t hne hfits s hrun hstores
  have hs : s.mem = (mergeBytes x.machine (placeBytes 0 bytes)).mem :=
    congrArg (·.session.machine.mem) (hostMove_load (opc := opc) (x := x) hfits)
  refine savedBytes_eq_image hne hfits fun i b hb => ?_
  have hkept : t.mem.read i = s.mem.read i := by
    by_contra hchanged
    obtain ⟨k, u, hk, hu, hstore, haddress⟩ := memoryChangesOnlyByStore opc n s t i hrun hchanged
    have hi : i < bytes.length := (List.getElem?_eq_some_iff.1 hb).1
    have habove := hstores k u hk hu hstore
    omega
  rw [hkept, hs, read_mergeBytes_of_getElem? hfits _ hb]

end Sys2Proof.Machine
end

section
/-! Assembly text (30_encoding.md R60 to R67): literals and labels, the text of an instruction read back, and that the
assembled text of a program is its encoding, which the machine fetches. -/

namespace Sys2Proof.Machine

/-! ### Literals -/

/-- The digits the printer writes are read back. -/
theorem digitValue_digitChar {base n : Nat} (hn : n < 10) : digitValue base (digitChar n) = some n := by
  have hchar : (digitChar n).toNat = 48 + n := by
    interval_cases n <;> decide
  have hrange : 48 ≤ (digitChar n).toNat ∧ (digitChar n).toNat ≤ 57 := by omega
  rw [digitValue, if_pos hrange, hchar, Nat.add_sub_cancel_left]

/-- A printed byte is of decimal digits. -/
theorem exists_digit_of_mem_decimalText {k : Byte} {c : Char} (h : c ∈ decimalText k) :
    ∃ n, n < 10 ∧ c = digitChar n := by
  have hk := k.isLt
  simp only [decimalText] at h
  split at h
  · exact ⟨_, ‹_›, List.mem_singleton.1 h⟩
  · split at h
    · simp only [List.mem_cons, List.not_mem_nil, or_false] at h
      obtain rfl | rfl := h
      · exact ⟨_, by omega, rfl⟩
      · exact ⟨_, by omega, rfl⟩
    · simp only [List.mem_cons, List.not_mem_nil, or_false] at h
      obtain rfl | rfl | rfl := h
      · exact ⟨_, by omega, rfl⟩
      · exact ⟨_, by omega, rfl⟩
      · exact ⟨_, by omega, rfl⟩

/-- No character but a decimal digit stands in a printed byte. -/
theorem notMem_decimalText {c : Char} (hc : digitValue 10 c = none) (k : Byte) : c ∉ decimalText k := by
  intro h
  obtain ⟨n, hn, rfl⟩ := exists_digit_of_mem_decimalText h
  rw [digitValue_digitChar hn] at hc
  cases hc

/-- A text without `x` is read as decimal. -/
theorem readLiteral_of_notMem {t : Text} (h : 'x' ∉ t) : readLiteral t = readNumeral 10 t := by
  unfold readLiteral
  split
  · simp at h
  · rfl

/-- The value of a printed byte is the byte (30_encoding.md R62, R67). -/
theorem readLiteral_decimalText (k : Byte) : readLiteral (decimalText k) = some k.toNat := by
  have hk := k.isLt
  have hones : k.toNat % 10 < 10 := by omega
  rw [readLiteral_of_notMem (notMem_decimalText rfl k)]
  simp only [decimalText]
  split
  · next h1 => simp [readNumeral, readDigits, digitValue_digitChar h1]
  · split
    · have htens : k.toNat / 10 < 10 := by omega
      simp only [readNumeral, readDigits, digitValue_digitChar htens, digitValue_digitChar hones, Option.some.injEq]
      omega
    · have hhundreds : k.toNat / 100 < 10 := by omega
      have htens : k.toNat / 10 % 10 < 10 := by omega
      simp only [readNumeral, readDigits, digitValue_digitChar hhundreds, digitValue_digitChar htens,
        digitValue_digitChar hones, Option.some.injEq]
      omega

/-- Two hexadecimal digits are a numeral of at most 8 bits. -/
theorem readNumeral_two_digits {c d : Char} {n k : Nat} (hc : digitValue 16 c = some n)
    (hd : digitValue 16 d = some k) : readNumeral 16 [c, d] = some (16 * n + k) ∧ 16 * n + k ≤ 255 := by
  have hn := digitValue_le hc
  have hk := digitValue_le hd
  exact ⟨by simp [readNumeral, readDigits, hc, hd], by omega⟩

/-- Settles O55: one or two hexadecimal digits are the only forms after `0x`, a printed byte is a decimal literal, a
sign is no digit, and an operand that is no literal makes its line malformed. -/
theorem operandLiteralForms : Obligations.OperandLiteralForms := by
  refine ⟨fun c d e rest n k hc hd => ?hex, rfl, readLiteral_decimalText, fun t => ?sign, fun m t hm ht => ?malformed⟩
  case hex =>
    obtain ⟨hnumeral, hle⟩ := readNumeral_two_digits hc hd
    exact ⟨by simp [readLiteral, readHexOperand, readNumeral, readDigits, hc], hnumeral, hle, rfl⟩
  case sign =>
    have hminus : digitValue 10 '-' = none := rfl
    simp [readLiteral, readNumeral, readDigits, hminus]
  case malformed => simp [lineInstr, mnemonicOf_mnemonicName, hm, ht]

/-! ### Labels -/

/-- A label of at most 8 bits sets the emission address and emits nothing (30_encoding.md R61). -/
theorem assembleFrom_label_of_le {opc : OpcodeMap} {at_ a : Nat} {line : Text} (rest : List Text)
    (hline : readLine line = .ok (.label a)) (ha : a ≤ 255) :
    assembleFrom opc at_ (line :: rest) = assembleFrom opc a rest := by
  rw [assembleFrom_label hline, if_pos (Nat.lt_succ_of_le ha)]

/-- Settles O42: the characters between `address_` and `h:` are read as a numeral, and labels are read one by one. -/
theorem labelSetsEmissionAddress : Obligations.LabelSetsEmissionAddress := by
  refine ⟨fun c d n k hc hd => ?form, fun opc at_ a b line line' rest hline ha => ?effect⟩
  case form =>
    obtain ⟨hnumeral, hle⟩ := readNumeral_two_digits hc hd
    have hlabel : readLabel ['a', 'd', 'd', 'r', 'e', 's', 's', '_', c, d, 'h', ':'] = some (16 * n + k) := hnumeral
    exact ⟨by rw [readLine, hlabel], hle⟩
  case effect =>
    refine ⟨assembleFrom_label_of_le rest hline ha, fun hline' hb => ?_⟩
    rw [assembleFrom_label_of_le _ hline ha, assembleFrom_label_of_le rest hline' hb]

/-! ### The text of an instruction -/

/-- No mnemonic begins like a label. -/
theorem readLabel_instrText (i : Instr) : readLabel (instrText i) = none := by
  cases i <;> rfl

theorem mnemonicName_ne_nil (m : Mnemonic) : mnemonicName m ≠ [] := by
  cases m <;> nofun

theorem space_notMem_mnemonicName (m : Mnemonic) : ' ' ∉ mnemonicName m := by
  cases m <;> decide

theorem decimalText_ne_nil (k : Byte) : decimalText k ≠ [] := by
  simp only [decimalText]
  split
  · nofun
  · split <;> nofun

/-- The words after the mnemonic in the text of an instruction. -/
def operandWords (i : Instr) : List Text :=
  (i.operand.map decimalText).toList

/-- The text of an instruction is its mnemonic and its operand, with a space between them (30_encoding.md R67). -/
theorem splitWords_instrText (i : Instr) :
    splitWords (instrText i) = mnemonicName i.mnemonic :: operandWords i := by
  have hname := space_notMem_mnemonicName i.mnemonic
  unfold instrText operandWords
  cases i.operand with
  | none => exact splitWords_word hname
  | some k =>
    have hoperand : ' ' ∉ decimalText k := notMem_decimalText rfl k
    rw [splitWords_cons _ hname, splitWords_word hoperand]
    rfl

/-- The text of an instruction is read as a mnemonic line with its words (30_encoding.md R60). -/
theorem readLine_instrText (i : Instr) :
    readLine (instrText i) = .ok (.code (mnemonicName i.mnemonic) (operandWords i)) := by
  have hwords : ((mnemonicName i.mnemonic :: operandWords i).any fun w => w.isEmpty) = false := by
    simp [operandWords, mnemonicName_ne_nil, decimalText_ne_nil]
  simp [readLine, readLabel_instrText, splitWords_instrText, hwords]

/-- The words of an instruction's text pass the assembler's checks as that instruction (30_encoding.md R62, R67). -/
theorem lineInstr_instrText (i : Instr) : lineInstr (mnemonicName i.mnemonic) (operandWords i) = .ok i := by
  cases i with
  | halt | xor | add | load | store | setPtr | swap => rfl
  | setReg1 k | jnz k => exact lineInstr_byte rfl (readLiteral_decimalText k)

/-! ### The text of a program -/

/-- Bytes placed one list after the other (30_encoding.md R64). -/
theorem placeBytes_append (a : Nat) (bytes more : List Byte) :
    placeBytes a (bytes ++ more) = placeBytes a bytes ++ placeBytes (a + bytes.length) more := by
  induction bytes generalizing a with
  | nil => rfl
  | cons b rest ih =>
    have hlength : a + (b :: rest).length = a + 1 + rest.length := by rw [List.length_cons]; omega
    rw [List.cons_append, placeBytes, placeBytes, ih, hlength, List.cons_append]

/-- The addresses of placed bytes are consecutive. -/
theorem map_fst_placeBytes (a : Nat) (bytes : List Byte) :
    (placeBytes a bytes).map Prod.fst = (List.range' a bytes.length).map (BitVec.ofNat 8) := by
  induction bytes generalizing a with
  | nil => rfl
  | cons b rest ih => rw [placeBytes, List.map_cons, ih, List.length_cons, List.range'_succ, List.map_cons]

/-- Bytes placed within the 256 addresses have an address each. -/
theorem placeBytes_nodup {a : Nat} {bytes : List Byte} (hfits : a + bytes.length ≤ 256) :
    ((placeBytes a bytes).map Prod.fst).Nodup := by
  rw [map_fst_placeBytes]
  refine List.Nodup.map_on (fun m hm n hn heq => ?_) List.nodup_range'
  have hm' := (List.mem_range'_1.1 hm).2
  have hn' := (List.mem_range'_1.1 hn).2
  have htoNat := congrArg BitVec.toNat heq
  rw [BitVec.toNat_ofNat, BitVec.toNat_ofNat] at htoNat
  omega

/-- A map has nothing emitted twice to drop. -/
theorem lastForEach_eq_self :
    ∀ {emitted : List (Byte × Byte)}, (emitted.map Prod.fst).Nodup → lastForEach emitted = emitted
  | [], _ => rfl
  | p :: rest, h => by
    obtain ⟨hp, hrest⟩ := List.nodup_cons.1 h
    have hnone : ¬(rest.any fun q => q.1 == p.1) = true := fun hany => by
      obtain ⟨q, hq, hqp⟩ := List.any_eq_true.1 hany
      exact hp (beq_iff_eq.1 hqp ▸ List.mem_map_of_mem hq)
    rw [lastForEach, if_neg hnone, lastForEach_eq_self hrest]

/-- A program has as many bytes as its instructions' sizes add up to. -/
theorem length_flatMap_encode (opc : OpcodeMap) (p : List Instr) :
    (p.flatMap (encode opc)).length = (p.map Instr.size).sum := by
  simp [List.length_flatMap]

/-- The text of a program emits its encoding from any address on, if that fits (30_encoding.md R64). -/
theorem assembleFrom_instrTexts (opc : OpcodeMap) {at_ : Nat} {p : List Instr}
    (hfits : at_ + (p.map Instr.size).sum ≤ 256) :
    assembleFrom opc at_ (p.map instrText) = .ok (placeBytes at_ (p.flatMap (encode opc))) := by
  induction p generalizing at_ with
  | nil => rfl
  | cons i rest ih =>
    rw [List.map_cons, List.sum_cons] at hfits
    have hi : at_ + i.size ≤ Config.memSize := le_trans (by omega) hfits
    rw [List.map_cons, assembleFrom_instr (readLine_instrText i) (lineInstr_instrText i), if_pos hi, ih (by omega),
      List.flatMap_cons, placeBytes_append, encode_length]
    rfl

/-- Settles O39: the emission from address 0, which names no address twice. -/
theorem assembledTextIsTheEncoding : Obligations.AssembledTextIsTheEncoding := by
  intro opc p hfits
  have hnodup : ((placeBytes 0 (p.flatMap (encode opc))).map Prod.fst).Nodup :=
    placeBytes_nodup (by rw [length_flatMap_encode]; omega)
  have hemitted : assembleFrom opc Config.loadBase (p.map instrText) = .ok (placeBytes 0 (p.flatMap (encode opc))) :=
    assembleFrom_instrTexts opc (by simpa using hfits)
  rw [assemble, hemitted]
  exact congrArg Except.ok (lastForEach_eq_self hnodup)

/-- A RUNNING machine with the encoding of an instruction in memory from PC on executes it, if the encoding does not
pass address 255 (40_execution_cycle.md R81). -/
theorem stepKind_of_encode {opc : OpcodeMap} (hopc : opc.distinct = true) {s : State} {i : Instr}
    (hs : s.st = .running) (hfits : s.pc.toNat + i.size ≤ 256)
    (hmem : ∀ j b, (encode opc i)[j]? = some b → s.mem.read (s.pc.toNat + j) = b) : stepKind opc s = .executed i := by
  have hopcode : memRead s s.pc = opc i.mnemonic := hmem 0 _ rfl
  obtain ⟨rest, hrest⟩ : ∃ rest, [memRead s s.pc, operandByte s] = encode opc i ++ rest := by
    rw [hopcode]
    cases i with
    | halt | xor | add | load | store | setPtr | swap => exact ⟨[operandByte s], rfl⟩
    | setReg1 k | jnz k =>
      have hsize : s.pc.toNat + 2 ≤ 256 := hfits
      have haddress : (operandAddress s).toNat = s.pc.toNat + 1 := by unfold operandAddress; bv_omega
      have hoperand : operandByte s = k := by
        rw [operandByte, memRead, haddress]
        exact hmem 1 k rfl
      exact ⟨[], by rw [hoperand]; rfl⟩
  refine stepKind_of_decode (rest := rest) hs ?_
  rw [hrest, decodeEncodeRoundTrip opc hopc]

/-- The bytes of an instruction stand in its program's encoding after those of the instructions before it. -/
theorem getElem?_flatMap_encode {opc : OpcodeMap} (before after : List Instr) {i : Instr} {j : Nat} {b : Byte}
    (hj : (encode opc i)[j]? = some b) :
    ((before ++ i :: after).flatMap (encode opc))[(before.map Instr.size).sum + j]? = some b := by
  have hlt : j < (encode opc i).length := (List.getElem?_eq_some_iff.1 hj).1
  rw [List.flatMap_append, List.flatMap_cons, ← length_flatMap_encode opc,
    List.getElem?_append_right (Nat.le_add_right ..), Nat.add_sub_cancel_left, List.getElem?_append_left hlt, hj]

/-- Settles O40: the program's encoding is merged from address 0 on, so that of each instruction stands at its own
address. -/
theorem assembledInstructionsAreFetched : Obligations.AssembledInstructionsAreFetched := by
  intro opc before after i x hopc hfits m
  have hmove := hostMove_program_ok (x := x) (assembledTextIsTheEncoding opc _ hfits)
  have hmachine : m.session.machine =
      mergeBytes x.machine (placeBytes 0 ((before ++ i :: after).flatMap (encode opc))) :=
    congrArg (·.session.machine) hmove
  have hend : (before.map Instr.size).sum + i.size ≤ 256 := by
    rw [List.map_append, List.sum_append, List.map_cons, List.sum_cons] at hfits
    omega
  have hpc : (BitVec.ofNat 8 (before.map Instr.size).sum).toNat = (before.map Instr.size).sum := by
    have hpos := i.size_pos
    rw [BitVec.toNat_ofNat]
    omega
  refine ⟨congrArg Move.reply hmove, stepKind_of_encode hopc rfl (hpc.symm ▸ hend) fun j b hj => ?_⟩
  rw [hmachine]
  simp only [hpc]
  exact read_mergeBytes_of_getElem? (by rw [length_flatMap_encode]; exact hfits) _ (getElem?_flatMap_encode _ _ hj)

end Sys2Proof.Machine
end
